-- ==== Sys2Proof/Word.lean ====
section
/-! DEFINITION. The word type of the block and its state array as a vector of words (spec/10_state.md R30). -/

namespace Sys2Proof

/-- A 64-bit register value, bit 0 the least significant (R10, R58). -/
abbrev Word := BitVec 64

/-- A byte of a message or of an output (R59, R61). -/
abbrev Byte := BitVec 8

/-- The 25 lane registers, `L[x + 5y]` at index `x + 5y` (R13, R30). -/
abbrev Lanes := Vector Word 25

end Sys2Proof
end

