-- ==== Sys2Proof/Config.lean ====
section
/-! DEFINITION. The free values: what the spec leaves without a value, each an opaque constant with no body.
All of them stand for register contents that no run from reset reaches (R34, R36, R37, R38, R49): the spec gives the block no
value there, so nothing may be proved of one (DESIGN CHOICE, safe, log entry 6). -/

namespace Sys2Proof.Config

/-- The rate in lanes of an LFUNC value outside 0..5, which R104's table does not list (R38: values 0..5). -/
opaque reservedRateLanes : BitVec 3 → BitVec 5

/-- The suffix byte of an LFUNC value outside 0..5, which R104's table does not list. -/
opaque reservedSuffix : BitVec 3 → BitVec 8

/-- The output length of a function number outside 0..3, which R104's table gives no fixed length.
INIT never asks for it (R108). -/
opaque reservedOutlen : BitVec 3 → Word

/-- The round constant of a round index outside 0..23, which R91's table does not list (R34: "Values 24..31 never occur"). -/
opaque reservedRoundConstant : BitVec 5 → Word

/-- What a 5-bit lane pointer outside 0..24 reads: there is no such lane (R30). -/
opaque absentLane : BitVec 5 → Word

end Sys2Proof.Config
end

