-- ==== Sys2Proof/Machine/Permutation.lean ====
section
/-! DEFINITION. The permutation Keccak-f[1600] and its five step mappings (spec/40_permutation.md R84 to R93), each a function from
a whole state to a whole state (R13), in the lane forms those rules give.
The step mappings are irreducible, so that a proof about another field of the state never computes one; unfolding them by name, and
evaluation by the kernel, go on as ever. -/

namespace Sys2Proof.Machine

/-- ROL64 (R12): left rotation by n mod 64 places. -/
def rol64 (v : Word) (n : Nat) : Word := v.rotateLeft n

/-- `A[x,y] = L[x + 5y]`, with both coordinates taken mod 5 (R11, R13). -/
def lane (L : Lanes) (x y : Nat) : Word := L[x % 5 + 5 * (y % 5)]'(by omega)

/-- `A[x,y,z]`, bit z of lane (x,y) (R13). -/
def bit (L : Lanes) (x y z : Nat) : Bool := (lane L x y).getLsbD z

/-- The state whose lane (x,y) is `f x y` (R13). -/
def ofLanes (f : Nat → Nat → Word) : Lanes := Vector.ofFn fun i => f (i.val % 5) (i.val / 5)

/-- `C[x]` of Theta (R84). -/
def thetaC (L : Lanes) (x : Nat) : Word := lane L x 0 ^^^ lane L x 1 ^^^ lane L x 2 ^^^ lane L x 3 ^^^ lane L x 4

/-- `D[x]` of Theta (R84). -/
def thetaD (L : Lanes) (x : Nat) : Word := thetaC L (x + 4) ^^^ rol64 (thetaC L (x + 1)) 1

/-- Theta (R84). -/
@[irreducible] def theta (L : Lanes) : Lanes := ofLanes fun x y => lane L x y ^^^ thetaD L x

/-- The Rho offsets by lane index, a constant of the block (R46, R86). -/
def rhoTable : Vector (BitVec 6) 25 :=
  #v[0, 1, 62, 28, 27,
     36, 44, 6, 55, 20,
     3, 10, 43, 25, 39,
     41, 45, 15, 21, 8,
     18, 2, 61, 56, 14]

/-- `r[x,y]` (R86). -/
def rhoOffset (x y : Nat) : Nat := (rhoTable[x % 5 + 5 * (y % 5)]'(by omega)).toNat

/-- Rho (R85). -/
@[irreducible] def rho (L : Lanes) : Lanes := ofLanes fun x y => rol64 (lane L x y) (rhoOffset x y)

/-- Pi (R87). -/
@[irreducible] def pi (L : Lanes) : Lanes := ofLanes fun x y => lane L (x + 3 * y) x

/-- Chi (R88), every output lane computed from the input lanes. -/
@[irreducible] def chi (L : Lanes) : Lanes := ofLanes fun x y => lane L x y ^^^ (~~~(lane L (x + 1) y) &&& lane L (x + 2) y)

/-- The bits of the round constants, a constant of the block (R46), in the 24 groups of R90: group `ir` lists, first bit leftmost,
the bits 0, 1, 3, 7, 15, 31 and 63 of `RC[ir]`. -/
def rcGroups : Vector (BitVec 7) 24 :=
  #v[0b1000000, 0b0101100, 0b0111101, 0b0000111, 0b1111100, 0b1000010,
     0b1001111, 0b1010101, 0b0111000, 0b0011000, 0b1010110, 0b0110010,
     0b1111110, 0b1111001, 0b1011101, 0b1100101, 0b0100101, 0b0001001,
     0b0110100, 0b0110011, 0b1001111, 0b0001101, 0b1000010, 0b0010111]

/-- The word whose bit `2^m - 1` is `b m` for m = 0..6, every other bit 0 (R90). -/
def spreadBits (b : Nat → Bool) : Word :=
  (List.range 7).foldl (fun w m => w ||| (BitVec.ofBool (b m)).setWidth 64 <<< (2 ^ m - 1)) 0

/-- `RC[ir]` (R90, R91); a free value for an index outside 0..23 (log entry 6). -/
def roundConstant (ir : BitVec 5) : Word :=
  if h : ir.toNat < 24 then spreadBits rcGroups[ir.toNat].getMsbD else Config.reservedRoundConstant ir

/-- Iota (R89). -/
@[irreducible] def iota (L : Lanes) (ir : BitVec 5) : Lanes := L.set 0 (L[0] ^^^ roundConstant ir)

/-- One round (R92). -/
@[irreducible] def keccakRound (L : Lanes) (ir : BitVec 5) : Lanes := iota (chi (pi (rho (theta L)))) ir

/-- `n` rounds, from round index `ir` upward. -/
def rounds (L : Lanes) (ir : BitVec 5) : Nat → Lanes
  | 0 => L
  | n + 1 => rounds (keccakRound L ir) (ir + 1) n

/-- KeccakF (R93): the 24 rounds with index 0, 1, ..., 23. -/
def keccakF (L : Lanes) : Lanes := rounds L 0 24

end Sys2Proof.Machine
end

