-- ==== Sys2Proof/Syntax.lean ====
section
/-! DEFINITION. The instructions of the block: one constructor per row of spec/opcode_table.json.
The first twelve are the command words a write of CMD carries (spec/30_encoding.md R77).
The last twelve are the host's bus accesses (spec/30_encoding.md R73, spec/20_memory.md R53). -/

namespace Sys2Proof

/-- The instructions. An operand has the width of its field in the encoding. -/
inductive Instr where
  /-- NOP (R122). -/
  | nop
  /-- INIT (R108). -/
  | init
  /-- FINAL with NB tail bytes and the 56-bit TAIL (R78, R110). -/
  | final (nb : BitVec 3) (tail : BitVec 56)
  /-- PERMUTE (R103). -/
  | permute
  /-- ROUND with the round index IR (R79, R102). -/
  | round (ir : BitVec 5)
  /-- THETA (R97). -/
  | theta
  /-- RHO (R98). -/
  | rho
  /-- PI (R99). -/
  | pi
  /-- CHI (R100). -/
  | chi
  /-- IOTA with the round index IR (R79, R101). -/
  | iota (ir : BitVec 5)
  /-- CLRERR (R123). -/
  | clrerr
  /-- SRESET (R124). -/
  | sreset
  /-- Read of ID (R125). -/
  | rdId
  /-- Write of CMD with any 64-bit word (R121). -/
  | wrCmd (v : Word)
  /-- Read of STATUS (R126). -/
  | rdStatus
  /-- Read of MODE (R127). -/
  | rdMode
  /-- Write of MODE (R128). -/
  | wrMode (v : Word)
  /-- Read of OUTLEN (R129). -/
  | rdOutlen
  /-- Write of OUTLEN (R130). -/
  | wrOutlen (v : Word)
  /-- Write of DIN (R109). -/
  | wrDin (v : Word)
  /-- Read of DOUT (R113). -/
  | rdDout
  /-- Read of REMAIN (R131). -/
  | rdRemain
  /-- Read of LANE[i] (R132). -/
  | rdLane (i : BitVec 5)
  /-- Write of LANE[i] (R133). -/
  | wrLane (i : BitVec 5) (v : Word)
  deriving DecidableEq, Repr

end Sys2Proof
end

