-- ==== Sys2Proof/WellFormed.lean ====
section
/-! DEFINITION. Which instruction terms the encodings admit (R79: IR in 0..23; R53: LANE[i] with i in 0..24), and the two spaces
of the opcode table. -/

namespace Sys2Proof

/-- The operand checks: a round index is at most 23 (R79) and a lane index at most 24 (R53).
Every other operand value is admitted (R110: FINAL has no reserved bit). -/
def Instr.wf : Instr → Bool
  | .round ir | .iota ir => decide (ir.toNat ≤ 23)
  | .rdLane i => decide (i.toNat ≤ 24)
  | .wrLane i _ => decide (i.toNat ≤ 24)
  | .nop | .init | .final _ _ | .permute | .theta | .rho | .pi | .chi | .clrerr | .sreset => true
  | .rdId | .wrCmd _ | .rdStatus | .rdMode | .wrMode _ | .rdOutlen | .wrOutlen _ | .wrDin _ | .rdDout | .rdRemain => true

/-- The rows of the opcode table whose space is the command word (R77). -/
def Instr.isCommand : Instr → Bool
  | .nop | .init | .final _ _ | .permute | .round _ | .theta | .rho | .pi | .chi | .iota _ | .clrerr | .sreset => true
  | .rdId | .wrCmd _ | .rdStatus | .rdMode | .wrMode _ | .rdOutlen | .wrOutlen _ | .wrDin _ | .rdDout | .rdRemain => false
  | .rdLane _ | .wrLane _ _ => false

/-- The instructions that wait while BUSY = 1 (R57): every write of CMD, so every command, the write of DIN, the read of DOUT
and both accesses of LANE[i]. -/
def Instr.stalls : Instr → Bool
  | .nop | .init | .final _ _ | .permute | .round _ | .theta | .rho | .pi | .chi | .iota _ | .clrerr | .sreset => true
  | .wrCmd _ | .wrDin _ | .rdDout | .rdLane _ | .wrLane _ _ => true
  | .rdId | .rdStatus | .rdMode | .wrMode _ | .rdOutlen | .wrOutlen _ | .rdRemain => false

end Sys2Proof
end

