-- ==== Sys2Proof/Decode.lean ====
section
/-! DEFINITION. The two encodings of spec/30_encoding.md and their decoders and encoders: a bus request (R73) and a command word
(R74). Decoding is total and rejects by name. A write of CMD decodes to wrCmd with its word, and the word decodes on its own,
after the stall, to the command it carries (R76, R121; DEDUCED, log entry 4). -/

namespace Sys2Proof

/-- One bus transaction (R73): the direction, the 9-bit offset, the byte enables and, for a write, the data. -/
inductive Request where
  /-- BUSR: dir = 0. -/
  | read (off : BitVec 9) (be : BitVec 8)
  /-- BUSW: dir = 1. -/
  | write (off : BitVec 9) (be : BitVec 8) (wdata : Word)
  deriving DecidableEq, Repr

/-- An encoded instruction, in the space its opcode-table row names. -/
inductive Code where
  /-- The word of a command: the data of a write of CMD (R74). -/
  | command (v : Word)
  /-- A bus transaction (R73). -/
  | access (r : Request)
  deriving DecidableEq, Repr

/-- Why an encoding is no instruction; the machine records the error the spec names for it (R146, R148). -/
inductive Reject where
  /-- The offset is not a multiple of 8, or a byte enable is off (R54): E_ADDR. -/
  | misaligned
  /-- A reserved offset (R56): E_ADDR. -/
  | reservedOffset
  /-- A read of CMD or DIN, or a write of ID, STATUS, DOUT or REMAIN (R55): E_ADDR. -/
  | wrongDirection
  /-- A command word with OP in 0x0C..0x1F (R80): E_CMD. -/
  | reservedOpcode
  /-- A command word with a non-zero reserved bit of its format (R80): E_CMD. -/
  | reservedBits
  /-- ROUND or IOTA with IR in 24..31 (R79): E_ARG. -/
  | roundIndex
  deriving DecidableEq, Repr

/-- The registers of the window (R53). -/
inductive Reg where
  | id | cmd | status | mode | outlen | din | dout | remain
  | lane (i : BitVec 5)
  deriving DecidableEq, Repr

/-- The register at an aligned offset, none where the offset is reserved (R53, R56). -/
def regAt (off : BitVec 9) : Option Reg :=
  match off.toNat / 8 with
  | 0 => some .id
  | 1 => some .cmd
  | 2 => some .status
  | 3 => some .mode
  | 4 => some .outlen
  | 5 => some .din
  | 6 => some .dout
  | 7 => some .remain
  | n => if 32 ≤ n ∧ n ≤ 56 then some (.lane (BitVec.ofNat 5 (n - 32))) else none

/-- The byte offset of a register (R53). -/
def Reg.offset : Reg → BitVec 9
  | .id => 0x000
  | .cmd => 0x008
  | .status => 0x010
  | .mode => 0x018
  | .outlen => 0x020
  | .din => 0x028
  | .dout => 0x030
  | .remain => 0x038
  | .lane i => BitVec.ofNat 9 (0x100 + 8 * i.toNat)

/-- R120 step 1: a whole access at a multiple of 8 (R54). -/
def wholeAligned (off : BitVec 9) (be : BitVec 8) : Bool :=
  decide (off.toNat % 8 = 0) && decide (be = 0xFF)

/-- Steps 1 to 3 of R120, and the access that passes them. -/
def decodeAccess : Request → Except Reject Instr
  | .read off be =>
    if wholeAligned off be then
      match regAt off with
      | none => .error .reservedOffset
      | some .id => .ok .rdId
      | some .cmd => .error .wrongDirection
      | some .status => .ok .rdStatus
      | some .mode => .ok .rdMode
      | some .outlen => .ok .rdOutlen
      | some .din => .error .wrongDirection
      | some .dout => .ok .rdDout
      | some .remain => .ok .rdRemain
      | some (.lane i) => .ok (.rdLane i)
    else .error .misaligned
  | .write off be v =>
    if wholeAligned off be then
      match regAt off with
      | none => .error .reservedOffset
      | some .id => .error .wrongDirection
      | some .cmd => .ok (.wrCmd v)
      | some .status => .error .wrongDirection
      | some .mode => .ok (.wrMode v)
      | some .outlen => .ok (.wrOutlen v)
      | some .din => .ok (.wrDin v)
      | some .dout => .error .wrongDirection
      | some .remain => .error .wrongDirection
      | some (.lane i) => .ok (.wrLane i v)
    else .error .misaligned

/-- The field OP = v[4:0] (R74). -/
def opField (v : Word) : BitVec 5 := v.extractLsb' 0 5

/-- The field NB = v[7:5] (R74, R78). -/
def nbField (v : Word) : BitVec 3 := v.extractLsb' 5 3

/-- The field TAIL = v[63:8] (R74, R78). -/
def tailField (v : Word) : BitVec 56 := v.extractLsb' 8 56

/-- The field IR = v[12:8] (R74, R79). -/
def irField (v : Word) : BitVec 5 := v.extractLsb' 8 5

/-- Format C0: `v[63:5]` must be 0 (R74). -/
def c0Clear (v : Word) : Bool := decide (v.extractLsb' 5 59 = 0)

/-- Format CR: `v[7:5]` and `v[63:13]` must be 0 (R74). -/
def crClear (v : Word) : Bool := decide (nbField v = 0) && decide (v.extractLsb' 13 51 = 0)

/-- A C0 word is its command if its reserved bits are clear (R76). -/
def decodeC0 (v : Word) (i : Instr) : Except Reject Instr :=
  if c0Clear v then .ok i else .error .reservedBits

/-- A CR word is its command if its reserved bits are clear, and then its index is at most 23 (R76). -/
def decodeCR (v : Word) (i : BitVec 5 → Instr) : Except Reject Instr :=
  if crClear v then
    if (irField v).toNat ≤ 23 then .ok (i (irField v)) else .error .roundIndex
  else .error .reservedBits

/-- The command of a word written to CMD (R76, with the opcode map R77). -/
def decodeCommand (v : Word) : Except Reject Instr :=
  match (opField v).toNat with
  | 0x00 => decodeC0 v .nop
  | 0x01 => decodeC0 v .init
  | 0x02 => .ok (.final (nbField v) (tailField v))
  | 0x03 => decodeC0 v .permute
  | 0x04 => decodeCR v .round
  | 0x05 => decodeC0 v .theta
  | 0x06 => decodeC0 v .rho
  | 0x07 => decodeC0 v .pi
  | 0x08 => decodeC0 v .chi
  | 0x09 => decodeCR v .iota
  | 0x0A => decodeC0 v .clrerr
  | 0x0B => decodeC0 v .sreset
  | _ => .error .reservedOpcode

/-- The decoder, over both spaces of the opcode table. -/
def decode : Code → Except Reject Instr
  | .command v => decodeCommand v
  | .access r => decodeAccess r

/-- A C0 command word (R74). -/
def wordC0 (op : BitVec 5) : Word := op.setWidth 64

/-- A CR command word, `op | ir<<8` (R74, R77). -/
def wordCR (op ir : BitVec 5) : Word := op.setWidth 64 ||| ir.setWidth 64 <<< 8

/-- A FINAL command word, `0x02 | nb<<5 | tail<<8` (R77, R78). -/
def wordCF (nb : BitVec 3) (tail : BitVec 56) : Word := 0x02 ||| nb.setWidth 64 <<< 5 ||| tail.setWidth 64 <<< 8

/-- A whole read of a register (R82: `rd <REG>`). -/
def readOf (r : Reg) : Request := .read r.offset 0xFF

/-- A whole write of a register (R82: `wr <REG>, <imm64>`). -/
def writeOf (r : Reg) (v : Word) : Request := .write r.offset 0xFF v

/-- The encoder, written from R73, R77 and R53. -/
def encode : Instr → Code
  | .nop => .command (wordC0 0x00)
  | .init => .command (wordC0 0x01)
  | .final nb tail => .command (wordCF nb tail)
  | .permute => .command (wordC0 0x03)
  | .round ir => .command (wordCR 0x04 ir)
  | .theta => .command (wordC0 0x05)
  | .rho => .command (wordC0 0x06)
  | .pi => .command (wordC0 0x07)
  | .chi => .command (wordC0 0x08)
  | .iota ir => .command (wordCR 0x09 ir)
  | .clrerr => .command (wordC0 0x0A)
  | .sreset => .command (wordC0 0x0B)
  | .rdId => .access (readOf .id)
  | .wrCmd v => .access (writeOf .cmd v)
  | .rdStatus => .access (readOf .status)
  | .rdMode => .access (readOf .mode)
  | .wrMode v => .access (writeOf .mode v)
  | .rdOutlen => .access (readOf .outlen)
  | .wrOutlen v => .access (writeOf .outlen v)
  | .wrDin v => .access (writeOf .din v)
  | .rdDout => .access (readOf .dout)
  | .rdRemain => .access (readOf .remain)
  | .rdLane i => .access (readOf (.lane i))
  | .wrLane i v => .access (writeOf (.lane i) v)

/-- How an encoded instruction reaches the block: a command word travels as the data of a write of CMD (R74, key 0x208), a
transaction as itself. -/
def Code.request : Code → Request
  | .command v => writeOf .cmd v
  | .access r => r

/-- The transaction of a 10-bit key `dir<<9 | off` with be = 0xFF and the given write data (R73). Where the key stands in a wider
number, and what that number's bits above the key count for, R73 does not say (log entry 5). -/
def requestOfKey (key : BitVec 10) (wdata : Word) : Request :=
  if key.getLsbD 9 then .write (key.setWidth 9) 0xFF wdata else .read (key.setWidth 9) 0xFF

/-- The encoded instruction behind a number of the opcode table (DESIGN CHOICE, log entry 5).
A row of at most 16 bits whose number is the key of a register access is that transaction; a row wider than a command word is a
key with its write data after the key's two bytes; every other number is a command word. Bits above `nbits` are 0.
The key is the number's bits 9:0, and bits 15:10 are dropped: R73 gives the key 10 bits and does not say how it stands in a wider
number, so that 0x0400 at 16 bits reads as the key 0, the read of ID, is the model's choice too. -/
def codeOfTableWord (nbits w : Nat) : Code :=
  let v := w % 2 ^ nbits
  let keyed := Code.access (requestOfKey (BitVec.ofNat 10 v) (BitVec.ofNat 64 (v / 2 ^ 16)))
  if nbits ≤ 8 then .command (BitVec.ofNat 64 v)
  else if nbits ≤ 16 then
    match decode keyed with
    | .ok _ => keyed
    | .error _ => .command (BitVec.ofNat 64 v)
  else if nbits ≤ 64 then .command (BitVec.ofNat 64 v)
  else keyed

/-- The instruction of a number of the opcode table. -/
def decodeTableWord (nbits w : Nat) : Option Instr :=
  (decode (codeOfTableWord nbits w)).toOption

end Sys2Proof
end

