-- ==== Sys2Proof/Machine/State.lean ====
section
/-! DEFINITION. The state of one block (spec/10_state.md) as plain data, with what stands outside it (the host's list of accesses
and the data its reads returned), the reasons a step can stop, and the state after reset (R47). -/

namespace Sys2Proof.Machine

/-- PHASE, the sponge sequencer's state (R33). -/
inductive Phase where
  /-- No hash in progress. -/
  | idle
  /-- INIT has succeeded; message words are accepted. -/
  | absorb
  /-- FINAL has been accepted; output words are delivered. -/
  | squeeze
  /-- The requested output length has been delivered. -/
  | done
  deriving DecidableEq, Repr

/-- The error codes of R146 that are ever recorded. -/
inductive ErrCode where
  /-- E_ADDR. -/
  | addr
  /-- E_CMD. -/
  | cmd
  /-- E_ARG. -/
  | arg
  /-- E_PHASE. -/
  | phase
  /-- E_MODE. -/
  | mode
  /-- E_LEN. -/
  | len
  deriving DecidableEq, Repr

/-- What the outside of the block does, in the order it happens (R7, R67; DESIGN CHOICE, log entries 1 and 3). -/
inductive Event where
  /-- The host issues an access. It stays at the head of the list, outstanding, until it completes. -/
  | access (r : Request)
  /-- The engine takes a turn before the next event (R67: engine steps interleave with host accesses). -/
  | engine
  /-- The reset event, with no host access outstanding (R172). -/
  | reset
  /-- The reset event while the access is outstanding (R173). -/
  | resetDuring (r : Request)
  deriving DecidableEq, Repr

/-- The state elements of R47, and the model's own two fields for what stands outside the block. -/
structure State where
  /-- L[0] .. L[24] (R30). -/
  lanes : Lanes
  /-- BUSY (R32). -/
  busy : Bool
  /-- PHASE (R33). -/
  phase : Phase
  /-- RND (R34). -/
  rnd : BitVec 5
  /-- ERR (R35). -/
  err : BitVec 4
  /-- LPTR (R36). -/
  lptr : BitVec 5
  /-- OPTR (R37). -/
  optr : BitVec 5
  /-- LFUNC (R38). -/
  lfunc : BitVec 3
  /-- REM (R39). -/
  rem : Word
  /-- MODE.FUNC (R40). -/
  func : BitVec 3
  /-- OUTLEN (R41). -/
  outlen : Word
  /-- What the outside does next, oldest first; not the block's state (R48; log entry 1). -/
  events : List Event
  /-- The rdata of every completed read, oldest first; not the block's state (R73; log entry 2). -/
  reads : List Word
  deriving DecidableEq, Repr

/-- No instruction and no event faults: the block has no trap (R140, R144), so there is no reason to name. -/
inductive Fault where
  deriving DecidableEq, Repr

/-- Why a step has no meaning. -/
inductive Refusal where
  /-- Raised by exec's arm of an instruction that has no meaning yet. Safe: the run stops. No arm raises it now. -/
  | notModelled (mnemonic : String)
  /-- Raised by step at a reset that arrives while a host access is outstanding, which the spec refuses (R173).
  Safe: the run stops, so no claim is made about what follows. -/
  | resetDuringAccess
  deriving DecidableEq, Repr

/-- The state after reset (R47, R170). The host's list and the data read are empty (DESIGN CHOICE, log entries 1 and 2). -/
def State.reset : State where
  lanes := Vector.replicate 25 0
  busy := false
  phase := .idle
  rnd := 0
  err := 0
  lptr := 0
  optr := 0
  lfunc := 0
  rem := 0
  func := 0
  outlen := 0
  events := []
  reads := []

/-- The outcome of a step of this machine. -/
abbrev Result := Host.Outcome State Fault Refusal

end Sys2Proof.Machine
end

