-- ==== Sys2Proof/Machine/Operands.lean ====
section
/-! DEFINITION. Operand forms: lanes by a 5-bit index (R30), the rate/capacity mux (R104), the word FINAL absorbs (R78, R110) and
the output mask of DOUT (R113). -/

namespace Sys2Proof.Machine

/-- The read-only ID word (R44). -/
def idWord : Word := 0x4B45434306400001

/-- `L[i]` for a 5-bit index; a free value where there is no such lane (log entry 6). -/
def getLane (L : Lanes) (i : BitVec 5) : Word :=
  if h : i.toNat < 25 then L[i.toNat] else Config.absentLane i

/-- `L[i] <- v`; nothing is written where there is no such lane (log entry 7). -/
def setLane (L : Lanes) (i : BitVec 5) (v : Word) : Lanes :=
  if h : i.toNat < 25 then L.set i.toNat v else L

/-- `L[i] <- L[i] XOR v` (R109, R110). -/
def xorLane (L : Lanes) (i : BitVec 5) (v : Word) : Lanes := setLane L i (getLane L i ^^^ v)

/-- RL, the rate in lanes of a function (R104); a free value outside 0..5 (log entry 6). -/
def rateLanes (f : BitVec 3) : BitVec 5 :=
  match f.toNat with
  | 0 => 18
  | 1 => 17
  | 2 => 13
  | 3 => 9
  | 4 => 21
  | 5 => 17
  | _ => Config.reservedRateLanes f

/-- SFX, the domain suffix with the first padding bit (R104); a free value outside 0..5 (log entry 6). -/
def suffixByte (f : BitVec 3) : BitVec 8 :=
  match f.toNat with
  | 0 | 1 | 2 | 3 => 0x06
  | 4 | 5 => 0x1F
  | _ => Config.reservedSuffix f

/-- outlen(f), the output length in bits of the functions that fix one (R104); a free value for the others (log entry 6). -/
def fixedOutlen (f : BitVec 3) : Word :=
  match f.toNat with
  | 0 => 224
  | 1 => 256
  | 2 => 384
  | 3 => 512
  | _ => Config.reservedOutlen f

/-- The functions whose length is OUTLEN: SHAKE128 and SHAKE256 (R41, R104). -/
def isXof (f : BitVec 3) : Bool := decide (f = 4) || decide (f = 5)

/-- The low `n` bits of a word, all of it from 64 bits on: `v AND (2^n - 1)` (R110, R113). -/
def lowBits (v : Word) (n : Nat) : Word := v &&& BitVec.ofNat 64 (2 ^ n - 1)

/-- The word FINAL absorbs at LPTR: `(tail AND (2^(8*nb) - 1)) OR (SFX(f) << (8*nb))` (R110, R78). -/
def finalWord (f : BitVec 3) (nb : BitVec 3) (tail : BitVec 56) : Word :=
  lowBits (tail.setWidth 64) (8 * nb.toNat) ||| (suffixByte f).setWidth 64 <<< (8 * nb.toNat)

/-- The last pad bit, block bit r - 1 (R110). -/
def lastPadBit : Word := 0x8000000000000000

/-- How many bits a DOUT read delivers: `min(REM, 64)` (R113). -/
def outputBits (rem : Word) : Nat := min rem.toNat 64

end Sys2Proof.Machine
end

