-- ==== Sys2Proof/Machine/Flags.lean ====
section
/-! DEFINITION. The flags of the block: the STATUS word (R42), the error codes (R146) and the primitive that records one (R147). -/

namespace Sys2Proof.Machine

/-- The PHASE field's value (R33). -/
def Phase.code : Phase → BitVec 2
  | .idle => 0
  | .absorb => 1
  | .squeeze => 2
  | .done => 3

/-- The ERR field's value (R146). -/
def ErrCode.code : ErrCode → BitVec 4
  | .addr => 1
  | .cmd => 2
  | .arg => 3
  | .phase => 4
  | .mode => 5
  | .len => 6

/-- The error an encoding that is no instruction records (R146). -/
def rejectCode : Reject → ErrCode
  | .misaligned | .reservedOffset | .wrongDirection => .addr
  | .reservedOpcode | .reservedBits => .cmd
  | .roundIndex => .arg

/-- RecordErr (R147): the first error since ERR was cleared wins. -/
def recordErr (c : ErrCode) (s : State) : State :=
  if s.err = 0 then { s with err := c.code } else s

/-- The STATUS word (R42): `BUSY | PHASE<<1 | ERR<<4 | RND<<8 | LPTR<<13 | OPTR<<18 | LFUNC<<23 | RLANES<<26`. -/
def statusWord (s : State) : Word :=
  (BitVec.ofBool s.busy).setWidth 64
    ||| s.phase.code.setWidth 64 <<< 1
    ||| s.err.setWidth 64 <<< 4
    ||| s.rnd.setWidth 64 <<< 8
    ||| s.lptr.setWidth 64 <<< 13
    ||| s.optr.setWidth 64 <<< 18
    ||| s.lfunc.setWidth 64 <<< 23
    ||| (rateLanes s.lfunc).setWidth 64 <<< 26

/-- The MODE word: `zext_64(FUNC)` (R40). -/
def modeWord (s : State) : Word := s.func.setWidth 64

end Sys2Proof.Machine
end

