-- ==== Sys2Proof/Machine/Ops.lean ====
section
/-! DEFINITION. The operations the meanings share: completing an access, the stall (R57), starting a permutation (R94), the engine
step (R95), reset (R170), and the turns that are no access. An error is recorded and the access completes: the block has no trap
to take and none to return from (R140, R144, R145), so `recordErr` of Flags.lean and `refuseAccess` here are its whole error
mechanism. -/

namespace Sys2Proof.Machine

/-- The access at the head of the host's list has completed: the next event is next (R67). -/
def retire (s : State) : State := { s with events := s.events.tail }

/-- A read returns rdata (R73). -/
def respond (v : Word) (s : State) : State := { s with reads := s.reads ++ [v] }

/-- StartPerm (R94). -/
def startPerm (s : State) : State := { s with busy := true, rnd := 0 }

/-- The engine step (R95): one whole round. -/
def engineStep (s : State) : State :=
  { s with
    lanes := keccakRound s.lanes s.rnd
    busy := if s.rnd = 23 then false else s.busy
    rnd := if s.rnd = 23 then 0 else s.rnd + 1 }

/-- Every state element takes its reset value (R47, R124, R170); what stands outside the block stays. -/
def blockReset (s : State) : State := { State.reset with events := s.events, reads := s.reads }

/-- An access that does not stall completes at once, whatever BUSY is (R57). -/
def atOnce (s : State) (act : State → State) : Result := .next (retire (act s))

/-- An access that stalls (R57, R120 step 4): while BUSY = 1 it has no effect and stays outstanding, and the engine, which then
has a step (R95), takes it; in a state where BUSY = 0 it completes with the effect computed from that state. -/
def stalling (s : State) (act : State → State) : Result :=
  if s.busy then .next (engineStep s) else .next (retire (act s))

/-- A refused read returns 0 (R54, R140); a refused write returns nothing. -/
def refusedData : Request → State → State
  | .read _ _, s => respond 0 s
  | .write _ _ _, s => s

/-- An access refused at steps 1 to 3 of R120: it records its error, returns 0 if it is a read, and completes at once. -/
def refuseAccess (r : Request) (e : Reject) (s : State) : Result :=
  atOnce s fun s => refusedData r (recordErr (rejectCode e) s)

/-- A turn of the engine: a step exactly when BUSY = 1 (R95), else nothing (log entry 3). -/
def engineTurn (s : State) : State := if s.busy then engineStep s else s

/-- An `engine` event: the engine's turn, and the next event is next. -/
def engineEvent (s : State) : Result := .next (retire (engineTurn s))

/-- No event is left: the engine finishes its permutation, and then every element keeps its value (R160; log entry 3). -/
def idleTurn (s : State) : Result := .next (engineTurn s)

/-- The reset event with no access outstanding (R170, R172). -/
def resetEvent (s : State) : Result := .next (retire (blockReset s))

/-- The reset event with an access outstanding: refused (R173; log entry 9). -/
def resetDuringAccess (_ : State) : Result := .refused .resetDuringAccess

end Sys2Proof.Machine
end

