-- ==== Sys2Proof/Machine/Datapath.lean ====
section
/-! DEFINITION. The datapath commands of spec/40_permutation.md: each a write of CMD, held while BUSY = 1, accepted in every
phase. -/

namespace Sys2Proof.Machine

/-- A command whose effect is a function of the lanes and nothing else (R97 to R102). -/
def mapLanes (f : Lanes → Lanes) (s : State) : State := { s with lanes := f s.lanes }

/-- A command with a round index: an index above 23 is refused with E_ARG (R76, R79). -/
def withRoundIndex (ir : BitVec 5) (act : State → State) (s : State) : State :=
  if ir.toNat ≤ 23 then act s else recordErr .arg s

/-- PERMUTE (R103). -/
def execPermute (s : State) : Result := stalling s startPerm

/-- ROUND (R102): all five steps in the one transition; BUSY and RND are not touched. -/
def execRound (ir : BitVec 5) (s : State) : Result :=
  stalling s (withRoundIndex ir (mapLanes fun L => keccakRound L ir))

/-- THETA (R97). -/
def execTheta (s : State) : Result := stalling s (mapLanes theta)

/-- RHO (R98). -/
def execRho (s : State) : Result := stalling s (mapLanes rho)

/-- PI (R99). -/
def execPi (s : State) : Result := stalling s (mapLanes pi)

/-- CHI (R100). -/
def execChi (s : State) : Result := stalling s (mapLanes chi)

/-- IOTA (R101). -/
def execIota (ir : BitVec 5) (s : State) : Result :=
  stalling s (withRoundIndex ir (mapLanes fun L => iota L ir))

end Sys2Proof.Machine
end

