-- ==== Sys2Proof/Machine/Sponge.lean ====
section
/-! DEFINITION. The sponge operations of spec/41_sponge.md: INIT, FINAL, the write of DIN and the read of DOUT. -/

namespace Sys2Proof.Machine

/-- INIT refuses the reserved functions, and an XOF with OUTLEN = 0 (R108). -/
def initRefusal (s : State) : Option ErrCode :=
  if 6 ≤ s.func.toNat then some .mode
  else if isXof s.func && decide (s.outlen = 0) then some .len
  else none

/-- A refused INIT abandons any hash in progress; L and LFUNC stay (R108). -/
def abandon (s : State) : State := { s with phase := .idle, lptr := 0, optr := 0, rem := 0 }

/-- A successful INIT (R108). -/
def beginHash (s : State) : State :=
  { s with
    lanes := Vector.replicate 25 0
    lfunc := s.func
    lptr := 0
    optr := 0
    rem := if s.func.toNat < 4 then fixedOutlen s.func else s.outlen
    phase := .absorb }

/-- ERR <- 0 (R108, R123). -/
def clearErr (s : State) : State := { s with err := 0 }

/-- The effect of INIT (R108). -/
def initHash (s : State) : State :=
  match initRefusal s with
  | some e => recordErr e (abandon (clearErr s))
  | none => beginHash (clearErr s)

/-- An accepted DIN word (R109): XORed into its lane; the RL-th of a block starts the permutation. -/
def absorbWord (v : Word) (s : State) : State :=
  let s1 := { s with lanes := xorLane s.lanes s.lptr v, lptr := s.lptr + 1 }
  if s1.lptr = rateLanes s1.lfunc then startPerm { s1 with lptr := 0 } else s1

/-- The lanes after FINAL's two XORs, in R110's order. -/
def padLanes (nb : BitVec 3) (tail : BitVec 56) (s : State) : Lanes :=
  xorLane (xorLane s.lanes s.lptr (finalWord s.lfunc nb tail)) (rateLanes s.lfunc - 1) lastPadBit

/-- An accepted FINAL (R110). -/
def padBlock (nb : BitVec 3) (tail : BitVec 56) (s : State) : State :=
  startPerm { s with lanes := padLanes nb tail s, phase := .squeeze, lptr := 0, optr := 0 }

/-- The word an accepted DOUT read returns (R113). -/
def outputWord (s : State) : Word := lowBits (getLane s.lanes s.optr) (outputBits s.rem)

/-- What an accepted DOUT read does to the block (R113): it consumes its bits, ends the hash at REM = 0, and refills an emptied
block while more output is due. -/
def consumeWord (s : State) : State :=
  let s1 := { s with rem := s.rem - BitVec.ofNat 64 (outputBits s.rem), optr := s.optr + 1 }
  if s1.rem = 0 then { s1 with phase := .done }
  else if s1.optr = rateLanes s1.lfunc then startPerm { s1 with optr := 0 }
  else s1

/-- The effect of a DIN write (R109). -/
def dinWrite (v : Word) (s : State) : State :=
  if s.phase = .absorb then absorbWord v s else recordErr .phase s

/-- The effect of FINAL (R110). -/
def finalPad (nb : BitVec 3) (tail : BitVec 56) (s : State) : State :=
  if s.phase = .absorb then padBlock nb tail s else recordErr .phase s

/-- The effect of a DOUT read (R113). -/
def doutRead (s : State) : State :=
  if s.phase = .squeeze then respond (outputWord s) (consumeWord s) else respond 0 (recordErr .phase s)

/-- INIT (R108). -/
def execInit (s : State) : Result := stalling s initHash

/-- FINAL (R110). -/
def execFinal (nb : BitVec 3) (tail : BitVec 56) (s : State) : Result := stalling s (finalPad nb tail)

/-- Write of DIN (R109). -/
def execWrDin (v : Word) (s : State) : Result := stalling s (dinWrite v)

/-- Read of DOUT (R113). -/
def execRdDout (s : State) : Result := stalling s doutRead

end Sys2Proof.Machine
end

