-- ==== Sys2Proof/Machine/Control.lean ====
section
/-! DEFINITION. The control commands of spec/42_bus_and_control.md (R122 to R124) and the write of CMD that carries every
command (R121). -/

namespace Sys2Proof.Machine

/-- NOP (R122): nothing but its stall. -/
def execNop (s : State) : Result := stalling s id

/-- CLRERR (R123). -/
def execClrerr (s : State) : Result := stalling s clearErr

/-- SRESET (R124). -/
def execSreset (s : State) : Result := stalling s blockReset

/-- The command of a decoded command word, by its own meaning (R121). The last arm is the bus accesses, which no command word
decodes to (`decodeCommand_isCommand` in Laws/Decode.lean), so no write of CMD comes to it; as no command it is refused. -/
def performCommand (i : Instr) (s : State) : Result :=
  match i with
  | .nop => execNop s
  | .init => execInit s
  | .final nb tail => execFinal nb tail s
  | .permute => execPermute s
  | .round ir => execRound ir s
  | .theta => execTheta s
  | .rho => execRho s
  | .pi => execPi s
  | .chi => execChi s
  | .iota ir => execIota ir s
  | .clrerr => execClrerr s
  | .sreset => execSreset s
  | .rdId | .wrCmd _ | .rdStatus | .rdMode | .wrMode _ | .rdOutlen | .wrOutlen _ | .wrDin _ | .rdDout | .rdRemain
  | .rdLane _ | .wrLane _ _ => stalling s (recordErr .cmd)

/-- Write of CMD (R121): after the stall the word is decoded (R76), and its command performed or its error recorded. -/
def execWrCmd (v : Word) (s : State) : Result :=
  match decodeCommand v with
  | .ok i => performCommand i s
  | .error e => stalling s (recordErr (rejectCode e))

end Sys2Proof.Machine
end

