-- ==== Sys2Proof/Machine/Registers.lean ====
section
/-! DEFINITION. The register accesses of spec/42_bus_and_control.md R125 to R133. -/

namespace Sys2Proof.Machine

/-- A LANE access beyond lane 24 is at a reserved offset and is refused at once (R56, R120 step 2). -/
def laneExists (i : BitVec 5) : Bool := decide (i.toNat ≤ 24)

/-- Read of ID (R125). -/
def execRdId (s : State) : Result := atOnce s (respond idWord)

/-- Read of STATUS (R126), from the state at the moment of the read. -/
def execRdStatus (s : State) : Result := atOnce s fun s => respond (statusWord s) s

/-- Read of MODE (R127). -/
def execRdMode (s : State) : Result := atOnce s fun s => respond (modeWord s) s

/-- Write of MODE (R128): FUNC takes `v[2:0]`. -/
def execWrMode (v : Word) (s : State) : Result := atOnce s fun s => { s with func := v.extractLsb' 0 3 }

/-- Read of OUTLEN (R129). -/
def execRdOutlen (s : State) : Result := atOnce s fun s => respond s.outlen s

/-- Write of OUTLEN (R130). -/
def execWrOutlen (v : Word) (s : State) : Result := atOnce s fun s => { s with outlen := v }

/-- Read of REMAIN (R131). -/
def execRdRemain (s : State) : Result := atOnce s fun s => respond s.rem s

/-- Read of LANE[i] (R132). -/
def execRdLane (i : BitVec 5) (s : State) : Result :=
  if laneExists i then stalling s fun s => respond (getLane s.lanes i) s
  else refuseAccess (readOf (.lane i)) .reservedOffset s

/-- Write of LANE[i] (R133). -/
def execWrLane (i : BitVec 5) (v : Word) (s : State) : Result :=
  if laneExists i then stalling s fun s => { s with lanes := setLane s.lanes i v }
  else refuseAccess (writeOf (.lane i) v) .reservedOffset s

end Sys2Proof.Machine
end

