-- ==== Sys2Proof/Machine/Dispatch.lean ====
section
/-! DEFINITION. One transition of the machine when the access at the head of the host's list is the instruction: one arm per
constructor of Instr. -/

namespace Sys2Proof.Machine

def exec (i : Instr) (s : State) : Host.Outcome State Fault Refusal :=
  match i with
  | .nop => Sys2Proof.Machine.execNop s
  | .init => Sys2Proof.Machine.execInit s
  | .final nb tail => Sys2Proof.Machine.execFinal nb tail s
  | .permute => Sys2Proof.Machine.execPermute s
  | .round ir => Sys2Proof.Machine.execRound ir s
  | .theta => Sys2Proof.Machine.execTheta s
  | .rho => Sys2Proof.Machine.execRho s
  | .pi => Sys2Proof.Machine.execPi s
  | .chi => Sys2Proof.Machine.execChi s
  | .iota ir => Sys2Proof.Machine.execIota ir s
  | .clrerr => Sys2Proof.Machine.execClrerr s
  | .sreset => Sys2Proof.Machine.execSreset s
  | .rdId => Sys2Proof.Machine.execRdId s
  | .wrCmd v => Sys2Proof.Machine.execWrCmd v s
  | .rdStatus => Sys2Proof.Machine.execRdStatus s
  | .rdMode => Sys2Proof.Machine.execRdMode s
  | .wrMode v => Sys2Proof.Machine.execWrMode v s
  | .rdOutlen => Sys2Proof.Machine.execRdOutlen s
  | .wrOutlen v => Sys2Proof.Machine.execWrOutlen v s
  | .wrDin v => Sys2Proof.Machine.execWrDin v s
  | .rdDout => Sys2Proof.Machine.execRdDout s
  | .rdRemain => Sys2Proof.Machine.execRdRemain s
  | .rdLane n => Sys2Proof.Machine.execRdLane n s
  | .wrLane n v => Sys2Proof.Machine.execWrLane n v s

end Sys2Proof.Machine
end

