-- ==== Sys2Proof/Machine/Step.lean ====
section
/-! DEFINITION. One step of the block and what stands around it: the next event of the outside, or the engine's turn.
The block fetches nothing (spec/10_state.md R50): the next instruction is the access at the head of the host's list. -/

namespace Sys2Proof.Machine

/-- One step. An access that steps 1 to 3 of R120 refuse completes with its error; any other runs as its instruction. -/
def step (s : State) : Host.Outcome State Fault Refusal :=
  match s.events with
  | [] => idleTurn s
  | .engine :: _ => engineEvent s
  | .reset :: _ => resetEvent s
  | .resetDuring _ :: _ => resetDuringAccess s
  | .access r :: _ =>
    match decodeAccess r with
    | .ok i => exec i s
    | .error e => refuseAccess r e s

/-- The state in which the host issues the instruction of an opcode-table number next (log entries 1 and 5). -/
def State.withFetchWord (s : State) (nbits w : Nat) : State :=
  { s with events := .access (codeOfTableWord nbits w).request :: s.events }

end Sys2Proof.Machine
end

