-- ==== Sys2Proof/Machine/Platform.lean ====
section
/-! DEFINITION. Several blocks on a platform (spec/00_scope.md R9, spec/20_memory.md R52, R65, spec/60_exceptions.md R158): each has
its own base and its own state, and nothing written is shared. BASE and N_INSTANCES are open parameters: the bases are data here
and the number of blocks is the length of the list (log entry 10). -/

namespace Sys2Proof.Machine

/-- WINDOW_SIZE (R9). -/
def windowSize : Nat := 512

/-- One block on the platform: its BASE and its state. -/
structure Block where
  base : Nat
  state : State
  deriving DecidableEq, Repr

/-- The blocks of a platform. -/
abbrev Platform := List Block

/-- The offset of a platform address in the window at `base`; none outside it (R52). -/
def windowOffset (base addr : Nat) : Option (BitVec 9) :=
  if base ≤ addr ∧ addr < base + windowSize then some (BitVec.ofNat 9 (addr - base)) else none

/-- A platform access: an address, byte enables, and data for a write. -/
structure PlatformAccess where
  addr : Nat
  be : BitVec 8
  wdata : Option Word
  deriving DecidableEq, Repr

/-- The access as the block at `base` sees it; none where the address is outside its window (R52). -/
def PlatformAccess.at (a : PlatformAccess) (base : Nat) : Option Request :=
  (windowOffset base a.addr).map fun off =>
    match a.wdata with
    | none => .read off a.be
    | some v => .write off a.be v

/-- A block is given an access: one more event of its list, after those already there (R67). -/
def Block.give (b : Block) (r : Request) : Block :=
  { b with state := { b.state with events := b.state.events ++ [.access r] } }

/-- The platform routes an access to the first block whose window holds the address; none where no window does (R52). -/
def Platform.route : Platform → PlatformAccess → Option Platform
  | [], _ => none
  | b :: p, a =>
    match a.at b.base with
    | some r => some (b.give r :: p)
    | none => (Platform.route p a).map (b :: ·)

/-- Block `k` takes one step; the others keep their state (R158). None where there is no such block or its step has no next
state. -/
def Platform.stepBlock : Platform → Nat → Option Platform
  | [], _ => none
  | b :: p, 0 =>
    match step b.state with
    | .next t => some ({ b with state := t } :: p)
    | .fault _ => none
    | .refused _ => none
  | b :: p, k + 1 => (Platform.stepBlock p k).map (b :: ·)

end Sys2Proof.Machine
end

