-- ==== Sys2Proof/Machine/Reference.lean ====
section
/-! DEFINITION. The functions the block computes, as the spec defines them on bit sequences, apart from the block's registers: the
generators of the two constant tables (spec/40_permutation.md R86, R90), pad10*1, the padded message and the sponge
(spec/41_sponge.md R104 to R107), and the byte orders (spec/20_memory.md R59 to R61). Statements compare the block with these. -/

namespace Sys2Proof.Machine

/-- The lane the Rho walk visits at step t (R86): it starts at (1,0) and goes from (x,y) to (y, (2x + 3y) mod 5). -/
def rhoWalk : Nat → Nat × Nat
  | 0 => (1, 0)
  | t + 1 => ((rhoWalk t).2, (2 * (rhoWalk t).1 + 3 * (rhoWalk t).2) % 5)

/-- One step of the shift register of R90: the old R[7] is fed back into R[0], R[4], R[5] and R[6]. -/
def lfsrStep (R : BitVec 8) : BitVec 8 := (R <<< 1) ^^^ (if R.getLsbD 7 then 0x71 else 0)

/-- The register after t steps from (1,0,0,0,0,0,0,0) (R90). -/
def lfsr : Nat → BitVec 8
  | 0 => 1
  | t + 1 => lfsrStep (lfsr t)

/-- `rc(t)` (R90). -/
def rcBit (t : Nat) : Bool := (lfsr (t % 255)).getLsbD 0

/-- `RC[ir]` as R90 generates it: bit `2^m - 1` is `rc(m + 7*ir)`, every other bit is 0. -/
def rcWord (ir : Nat) : Word := spreadBits fun m => rcBit (m + 7 * ir)

/-- A bit sequence (R15): its head is its first bit. -/
abbrev Bits := List Bool

/-- The number whose bit k is bit k of the sequence. -/
def bitsValue : Bits → Nat
  | [] => 0
  | b :: bs => b.toNat + 2 * bitsValue bs

/-- The word whose bit z is bit z of the sequence, 0 beyond its end (R60, R61). -/
def wordOfBits (S : Bits) : Word := BitVec.ofNat 64 (bitsValue S)

/-- The state as a bit sequence: `S[64(x+5y) + z] = A[x,y,z]` (R60). -/
def bitsOfLanes (L : Lanes) : Bits := L.toList.flatMap fun v => (List.range 64).map v.getLsbD

/-- The state of a bit sequence (R60). -/
def lanesOfBits (S : Bits) : Lanes := Vector.ofFn fun i => wordOfBits ((S.drop (64 * i.val)).take 64)

/-- KeccakF on the state as a bit sequence (R93, R60). -/
def keccakFBits (S : Bits) : Bits := bitsOfLanes (keccakF (lanesOfBits S))

/-- The bit sequence of a byte message: bit 8k + j is bit j of byte k (R59). -/
def messageBits (M : List Byte) : Bits := M.flatMap fun b => (List.range 8).map b.getLsbD

/-- The six functions of the block (R2), numbered as FUNC (R104). -/
inductive SpongeFn where
  | sha3_224 | sha3_256 | sha3_384 | sha3_512 | shake128 | shake256
  deriving DecidableEq, Repr

/-- The FUNC number (R104). -/
def SpongeFn.num : SpongeFn → BitVec 3
  | .sha3_224 => 0
  | .sha3_256 => 1
  | .sha3_384 => 2
  | .sha3_512 => 3
  | .shake128 => 4
  | .shake256 => 5

/-- The rate r in bits (R104). -/
def SpongeFn.rate : SpongeFn → Nat
  | .sha3_224 => 1152
  | .sha3_256 => 1088
  | .sha3_384 => 832
  | .sha3_512 => 576
  | .shake128 => 1344
  | .shake256 => 1088

/-- The domain suffix, first bit leftmost (R104). -/
def SpongeFn.suffix : SpongeFn → Bits
  | .sha3_224 | .sha3_256 | .sha3_384 | .sha3_512 => [false, true]
  | .shake128 | .shake256 => [true, true, true, true]

/-- The output length in bits of the functions that fix one (R104). -/
def SpongeFn.digestBits : SpongeFn → Option Nat
  | .sha3_224 => some 224
  | .sha3_256 => some 256
  | .sha3_384 => some 384
  | .sha3_512 => some 512
  | .shake128 | .shake256 => none

/-- The output lengths a function may be asked for: its own, or 1 to 2^64 - 1 for the XOFs (R9, R104). -/
def SpongeFn.admits (f : SpongeFn) (n : Nat) : Bool :=
  match f.digestBits with
  | some d => decide (n = d)
  | none => decide (1 ≤ n) && decide (n < 2 ^ 64)

/-- `pad(r, m) = 1 ++ 0^j ++ 1` with `j = (-m-2) mod r` (R105). -/
def pad101 (r m : Nat) : Bits := true :: (List.replicate ((-(m : Int) - 2) % (r : Int)).toNat false ++ [true])

/-- The padded message P (R106). -/
def paddedMessage (f : SpongeFn) (M : List Byte) : Bits :=
  messageBits M ++ f.suffix ++ pad101 f.rate (8 * M.length + f.suffix.length)

/-- The blocks `P_0 .. P_(nblk-1)` of r bits (R106). -/
def blocks (r : Nat) (P : Bits) : List Bits := (List.range (P.length / r)).map fun k => (P.drop (k * r)).take r

/-- `S XOR (P_k ++ 0^c)` (R107). -/
def xorBlock (S P : Bits) : Bits := List.zipWith xor S (P ++ List.replicate (1600 - P.length) false)

/-- The absorbing loop of SPONGE (R107). -/
def absorbBlocks (S : Bits) (Ps : List Bits) : Bits := Ps.foldl (fun S P => keccakFBits (xorBlock S P)) S

/-- The squeezing loop of SPONGE (R107): `while |Z| < n`. One turn adds r >= 1 bits, so n turns are enough. -/
def squeezeBits (r n : Nat) : Nat → Bits → Bits → Bits
  | 0, _, Z => Z
  | k + 1, S, Z => if Z.length < n then squeezeBits r n k (keccakFBits S) (Z ++ (keccakFBits S).take r) else Z

/-- The post-absorption state of SPONGE (R107). -/
def absorbed (f : SpongeFn) (M : List Byte) : Bits :=
  absorbBlocks (List.replicate 1600 false) (blocks f.rate (paddedMessage f M))

/-- `SPONGE(f, M, n)` (R107). -/
def sponge (f : SpongeFn) (M : List Byte) (n : Nat) : Bits :=
  (squeezeBits f.rate n n (absorbed f M) ((absorbed f M).take f.rate)).take n

/-- The last squeezed state of SPONGE (R118): `ceil(n/r) - 1` permutations after the absorption (R107). -/
def lastSqueezed (f : SpongeFn) (M : List Byte) (n : Nat) : Bits :=
  Nat.iterate keccakFBits ((n + f.rate - 1) / f.rate - 1) (absorbed f M)

/-- `ceil(n/64)` words carry n output bits (R114). -/
def outputWords (n : Nat) : Nat := (n + 63) / 64

/-- The words a bit sequence fills, 64 bits a word and zeros beyond its end (R61, R114). -/
def wordsOfBits (Z : Bits) : List Word :=
  (List.range (outputWords Z.length)).map fun q => wordOfBits ((Z.drop (64 * q)).take 64)

/-- The bytes a bit sequence fills: bit j of byte k is bit 8k + j, zeros beyond its end (R61). -/
def bytesOfBits (Z : Bits) : List Byte :=
  (List.range ((Z.length + 7) / 8)).map fun k => BitVec.ofNat 8 (bitsValue ((Z.drop (8 * k)).take 8))

/-- Eight or fewer message bytes in a word, byte k in bits 8k+7:8k (R58, R59). -/
def packBytes : List Byte → Nat
  | [] => 0
  | b :: bs => b.toNat + 256 * packBytes bs

/-- Output byte k of the words read (R61). -/
def outputByte (ws : List Word) (k : Nat) : Byte := (ws.getD (k / 8) 0).extractLsb' (8 * (k % 8)) 8

/-- The digest of n bits in the words read: `ceil(n/8)` bytes (R61, R118). -/
def digestBytes (ws : List Word) (n : Nat) : List Byte := (List.range ((n + 7) / 8)).map (outputByte ws)

end Sys2Proof.Machine
end

