-- ==== Sys2Proof/Machine/Procedure.lean ====
section
/-! DEFINITION. The host's side: the pseudo-instructions of spec/30_encoding.md R83 and the procedure `hash` of spec/41_sponge.md
R118, as lists of accesses. Control flow is the host's (R134): a loop with a fixed count stands as the accesses it makes, and `poll`,
which ends by what it reads, as the host's loop over the machine's runs (log entry 15). -/

namespace Sys2Proof.Machine

/-- `rd <REG>` (R82). -/
def rdReg (r : Reg) : Event := .access (readOf r)

/-- `wr <REG>, <imm64>` (R82). -/
def wrReg (r : Reg) (v : Word) : Event := .access (writeOf r v)

/-- A command instruction as the access that carries it (R83). -/
def issue (i : Instr) : Event := .access (encode i).request

/-- `final.bytes b0, ..., b(k-1)` (R83). -/
def finalBytes (bs : List Byte) : Event :=
  issue (.final (BitVec.ofNat 3 bs.length) (BitVec.ofNat 56 (packBytes bs)))

/-- `absorb.bytes b0, ..., b7` (R83). -/
def absorbBytes (bs : List Byte) : Event := wrReg .din (BitVec.ofNat 64 (packBytes bs))

/-- `wait` (R83): a NOP, which completes only when BUSY = 0. -/
def waitDone : Event := issue .nop

/-- The turns of `poll` (R83), each a STATUS read, with the engine turns that fall before it (R67; log entry 3). -/
def pollTurns (gaps : List Nat) : List Event := gaps.flatMap fun g => List.replicate g .engine ++ [rdReg .status]

/-- The exit test of `poll` (R83): bit 0 of the value read is 0. -/
def pollExit (v : Word) : Bool := !v.getLsbD 0

/-- The value of the read that completed last. -/
def lastRead (s : State) : Word := s.reads.getLastD 0

/-- One turn of `poll`: the host issues its STATUS read next, and `g` engine turns fall before it. -/
def pollTurn (g : Nat) (s : State) : Result :=
  Host.Core.run Sys2Proof.core (g + 1) { s with events := pollTurns [g] ++ s.events }

/-- `poll` (R83), the host's loop: it reads STATUS until bit 0 of the value is 0, and ends at the first such value. How many engine
turns fall before each read is the list; none where the list ends before the loop does. -/
def poll : List Nat → State → Option State
  | [], _ => none
  | g :: gaps, s =>
    match pollTurn g s with
    | .next t => if pollExit (lastRead t) then some t else poll gaps t
    | .fault _ => none
    | .refused _ => none

/-- What the host itself does: the events without the engine's turns between them (R67). -/
def withoutEngineTurns (es : List Event) : List Event := es.filter fun e => decide (e ≠ .engine)

/-- The DIN writes of a message: its whole words (R118). -/
def dinWrites (M : List Byte) : List Event :=
  (List.range (M.length / 8)).map fun k => absorbBytes ((M.drop (8 * k)).take 8)

/-- The DOUT reads of n output bits (R118). -/
def doutReads (n : Nat) : List Event := List.replicate (outputWords n) (rdReg .dout)

/-- The procedure `hash f, M, n` (R118): OUTLEN is written for the XOFs only. -/
def hashProcedure (f : SpongeFn) (M : List Byte) (n : Nat) : List Event :=
  [wrReg .mode (f.num.setWidth 64)]
    ++ (if isXof f.num then [wrReg .outlen (BitVec.ofNat 64 n)] else [])
    ++ [issue .init]
    ++ dinWrites M
    ++ [finalBytes (M.drop (8 * (M.length / 8)))]
    ++ doutReads n

end Sys2Proof.Machine
end

