-- ==== Sys2Proof/Safety.lean ====
section
/-! DEFINITION. What a safe run is: the invariants of spec/10_state.md R49 with the error codes of spec/60_exceptions.md R146, and
what it means that a step refused nothing (R150). -/

namespace Sys2Proof.Machine

/-- The invariants "that every rule of this spec preserves from reset" (R49), what makes R49 (f) inductive, and R146's range of
ERR. -/
structure Invariants (s : State) : Prop where
  /-- R49 (a). -/
  idleRnd : s.busy = false → s.rnd = 0
  /-- R49 (b). -/
  rndRange : s.rnd.toNat ≤ 23
  /-- R49 (c). -/
  lfuncRange : s.lfunc.toNat ≤ 5
  /-- R49 (d). -/
  lptrRange : s.lptr.toNat < (rateLanes s.lfunc).toNat
  /-- R49 (e), the range. -/
  optrRange : s.optr.toNat ≤ (rateLanes s.lfunc).toNat
  /-- R49 (e), the end of the range. -/
  optrFull : s.optr = rateLanes s.lfunc → s.phase = .done
  /-- R49 (f). -/
  squeezeDue : s.phase = .squeeze → s.rem ≠ 0
  /-- What keeps R49 (f): a hash in ABSORB has output due, since INIT refuses a length of 0 (R108). -/
  absorbDue : s.phase = .absorb → s.rem ≠ 0
  /-- R49 (g). -/
  idlePointers : s.phase = .idle → s.lptr = 0 ∧ s.optr = 0
  /-- R146: codes 7..15 are never produced. -/
  errRange : s.err.toNat ≤ 6

/-- The only stop of a run is the reset the spec refuses (R173): no event of the list is one. -/
def noRefusedReset (s : State) : Bool :=
  s.events.all fun e =>
    match e with
    | .access _ => true
    | .engine => true
    | .reset => true
    | .resetDuring _ => false

/-- No error stands recorded: nothing was refused since ERR was last cleared (R147, R149, R150). -/
def noError (s : State) : Bool := decide (s.err = 0)

end Sys2Proof.Machine
end

