-- ==== Sys2Proof/Certificates/Slice0/Obligations.lean ====
section
/-! DEFINITION. The statements for the provers. Each docstring names the rule it comes from. A statement of the form
`t = { s with ... }` is a frame as well: every state element that is not named there keeps its value, the host's list loses the
completed access and nothing else, and the data read so far stays. The block has no memory and no program counter (R50, R52; log
entry 14), so the frame has no such clause. -/

open Sys2Proof Sys2Proof.Machine

/-! ### Decoding and stepping -/

/-- The step at an access that decodes is the transition of its instruction (R120, R67). Around exec the step adds nothing: the
completed access leaves the list, and a stalled one stays, inside exec. -/
def Obligations.StepRunsTheDecodedAccess : Prop :=
  ∀ (s : State) (r : Request) (rest : List Event) (i : Instr),
    s.events = .access r :: rest → decodeAccess r = .ok i → step s = exec i s

/-- Every number of the opcode table that decodes is an instruction that the next step runs (log entry 5: the numbering is the
model's choice). -/
def Obligations.TableWordRunsItsInstruction : Prop :=
  ∀ (s : State) (nbits w : Nat) (i : Instr),
    decodeTableWord nbits w = some i → step (s.withFetchWord nbits w) = exec i (s.withFetchWord nbits w)

/-- R121: a write of CMD performs the command its word decodes to, and completes as that command does. -/
def Obligations.CmdWritePerformsItsCommand : Prop :=
  ∀ (s : State) (v : Word) (i : Instr), decodeCommand v = .ok i →
    exec (.wrCmd v) s = exec i s ∧
    (s.busy = false → ∃ t, exec (.wrCmd v) s = .next t ∧ exec i s = .next t ∧ t.events = s.events.tail)

/-- R76, R80: a reserved opcode or a non-zero reserved bit of its format makes a command word record E_CMD, else an index of 24 or
more of ROUND or IOTA makes it record E_ARG; the write completes, and nothing else changes. -/
def Obligations.IllegalCommandWordOnlyRecordsItsError : Prop :=
  ∀ (s : State) (v : Word), s.busy = false →
    let op := (v.extractLsb' 0 5).toNat
    let cr := op = 4 ∨ op = 9
    let badCmd := 11 < op ∨ (cr ∧ (v.extractLsb' 5 3 ≠ 0 ∨ v.extractLsb' 13 51 ≠ 0)) ∨
      (op ≤ 11 ∧ ¬ cr ∧ op ≠ 2 ∧ v.extractLsb' 5 59 ≠ 0)
    (badCmd → exec (.wrCmd v) s =
      .next { s with err := if s.err = 0 then 2 else s.err, events := s.events.tail }) ∧
    (¬ badCmd → cr → 24 ≤ (v.extractLsb' 8 5).toNat → exec (.wrCmd v) s =
      .next { s with err := if s.err = 0 then 3 else s.err, events := s.events.tail })

/-- R54, R55, R56: an access that is misaligned or partial, at a reserved offset, or in the wrong direction completes at once,
whatever BUSY is; it records E_ADDR, a read returns 0, and nothing else changes. -/
def Obligations.RefusedAccessOnlyRecordsAddressError : Prop :=
  ∀ (s : State) (off : BitVec 9) (be : BitVec 8) (v : Word) (rest : List Event),
    let o := off.toNat
    let refused := o % 8 ≠ 0 ∨ be ≠ 0xFF ∨ (0x040 ≤ o ∧ o ≤ 0x0F8) ∨ 0x1C8 ≤ o
    (s.events = .access (.read off be) :: rest → (refused ∨ o = 0x008 ∨ o = 0x028) →
      step s = .next { s with err := if s.err = 0 then 1 else s.err, events := rest, reads := s.reads ++ [0] }) ∧
    (s.events = .access (.write off be v) :: rest →
      (refused ∨ o = 0x000 ∨ o = 0x010 ∨ o = 0x030 ∨ o = 0x038) →
      step s = .next { s with err := if s.err = 0 then 1 else s.err, events := rest })

/-- Words and keys written out from R77 and R73 decode to the instructions they stand for, one or more of each family. -/
def Obligations.SampleWordsDecode : Prop :=
  decode (.command 0x0000000000000005) = .ok .theta ∧
  decode (.command 0x0000000000001709) = .ok (.iota 23) ∧
  decode (.command 0x0000000063626162) = .ok (.final 3 0x636261) ∧
  decode (.command 0x000000000000000B) = .ok .sreset ∧
  decode (.access (.read 0x010 0xFF)) = .ok .rdStatus ∧
  decode (.access (.write 0x028 0xFF 0x0706050403020100)) = .ok (.wrDin 0x0706050403020100) ∧
  decode (.access (.write 0x1C0 0xFF 0xDEADBEEF)) = .ok (.wrLane 24 0xDEADBEEF)

/-- Decode and encode agree: every well-formed instruction is what its encoding decodes to, for every operand value. -/
def Obligations.DecodeOfEncodeIsTheInstruction : Prop :=
  ∀ i : Instr, i.wf = true → decode (encode i) = .ok i

/-- Encode and decode agree the other way: whatever decodes is well-formed and has no other encoding, so no bit of a command word
or of a transaction is ignored (R74, R75, R80). -/
def Obligations.EncodeOfDecodeIsTheCode : Prop :=
  ∀ (c : Code) (i : Instr), decode c = .ok i → i.wf = true ∧ encode i = c

/-! ### Register accesses -/

/-- R127, R129, with R125 and R131: the reads of ID, MODE, OUTLEN and REMAIN return their value at once, whatever BUSY is, and
change nothing. -/
def Obligations.RegisterReadsReturnTheirValue : Prop :=
  ∀ s : State,
    exec .rdId s = .next { s with events := s.events.tail, reads := s.reads ++ [0x4B45434306400001] } ∧
    exec .rdMode s = .next { s with events := s.events.tail, reads := s.reads ++ [BitVec.ofNat 64 s.func.toNat] } ∧
    exec .rdOutlen s = .next { s with events := s.events.tail, reads := s.reads ++ [s.outlen] } ∧
    exec .rdRemain s = .next { s with events := s.events.tail, reads := s.reads ++ [s.rem] }

/-- R42, R126: the read of STATUS returns, at once and without side effect, the word with each field in its place; RLANES is RL of
LFUNC, stated for the six functions. -/
def Obligations.StatusReadShowsEveryField : Prop :=
  ∀ s : State, ∃ w : Word,
    exec .rdStatus s = .next { s with events := s.events.tail, reads := s.reads ++ [w] } ∧
    w.getLsbD 0 = s.busy ∧
    w.extractLsb' 1 2 = (match s.phase with | .idle => 0 | .absorb => 1 | .squeeze => 2 | .done => 3) ∧
    w.getLsbD 3 = false ∧
    w.extractLsb' 4 4 = s.err ∧
    w.extractLsb' 8 5 = s.rnd ∧
    w.extractLsb' 13 5 = s.lptr ∧
    w.extractLsb' 18 5 = s.optr ∧
    w.extractLsb' 23 3 = s.lfunc ∧
    (∀ f : SpongeFn, s.lfunc = f.num → w.extractLsb' 26 5 = BitVec.ofNat 5 (f.rate / 64)) ∧
    w.extractLsb' 31 33 = 0

/-- R128, R130: the writes of MODE and OUTLEN complete at once in every state, store `v[2:0]` and v, and change nothing else: a
hash in progress keeps its latched values (R179). -/
def Obligations.ModeAndOutlenWritesStore : Prop :=
  ∀ (s : State) (v : Word),
    exec (.wrMode v) s = .next { s with func := BitVec.ofNat 3 (v.toNat % 8), events := s.events.tail } ∧
    exec (.wrOutlen v) s = .next { s with outlen := v, events := s.events.tail }

/-- R132, R133: with BUSY = 0, a LANE read returns its lane and a LANE write stores it, in every phase; no other lane and no other
element changes. An instruction term with an index of 25 or more is no encoding of R53; that the model takes it for an access at a
reserved offset and refuses it at once is the model's choice (log entry 8, DEDUCED). -/
def Obligations.LaneWindowReadsAndWrites : Prop :=
  ∀ (s : State) (i : BitVec 5) (v : Word),
    (s.busy = false → ∀ h : i.toNat < 25,
      exec (.rdLane i) s = .next { s with events := s.events.tail, reads := s.reads ++ [s.lanes[i.toNat]] } ∧
      ∃ t, exec (.wrLane i v) s = .next t ∧
        t = { s with lanes := t.lanes, events := s.events.tail } ∧
        ∀ j, ∀ hj : j < 25, t.lanes[j] = if j = i.toNat then v else s.lanes[j]) ∧
    (25 ≤ i.toNat →
      exec (.rdLane i) s =
        .next { s with err := if s.err = 0 then 1 else s.err, events := s.events.tail, reads := s.reads ++ [0] } ∧
      exec (.wrLane i v) s = .next { s with err := if s.err = 0 then 1 else s.err, events := s.events.tail })

/-- R63: the writes of MODE, OUTLEN and LANE[i] are idempotent: made twice they leave what they leave made once, but that the host's
list is one access shorter. -/
def Obligations.RegisterWritesAreIdempotent : Prop :=
  ∀ (i : Instr) (s t : State), (i.stalls = true → s.busy = false) →
    (∃ v, i = .wrMode v ∨ i = .wrOutlen v ∨ ∃ k, i = .wrLane k v ∧ k.toNat < 25) →
    exec i s = .next t → exec i t = .next { t with events := t.events.tail }

/-! ### The datapath -/

/-- R12: left rotation by n mod 64 places. -/
def Obligations.RolMovesBitsUpModulo64 : Prop :=
  ∀ (v : Word) (n z : Nat), z < 64 →
    (rol64 v n).getLsbD z = v.getLsbD ((z + 64 - n % 64) % 64) ∧
    rol64 v 0 = v ∧ (rol64 v 1).getLsbD 0 = v.getLsbD 63 ∧ rol64 v n = rol64 v (n % 64)

/-- R84: THETA completes with Theta of the lanes, by the bit formula and by the lane form; nothing else changes. -/
def Obligations.ThetaXorsTwoColumnParities : Prop :=
  ∀ s : State, s.busy = false → ∃ t, exec .theta s = .next t ∧
    t = { s with lanes := t.lanes, events := s.events.tail } ∧
    (∀ x y z, x < 5 → y < 5 → z < 64 →
      let A := bit s.lanes
      let C := fun x z => A x 0 z ^^ A x 1 z ^^ A x 2 z ^^ A x 3 z ^^ A x 4 z
      bit t.lanes x y z = (A x y z ^^ (C ((x + 4) % 5) z ^^ C ((x + 1) % 5) ((z + 63) % 64)))) ∧
    ∀ x y, x < 5 → y < 5 →
      let L := lane s.lanes
      let C := fun x => L x 0 ^^^ L x 1 ^^^ L x 2 ^^^ L x 3 ^^^ L x 4
      lane t.lanes x y = L x y ^^^ (C ((x + 4) % 5) ^^^ rol64 (C ((x + 1) % 5)) 1)

/-- R85: RHO completes with every lane rotated by its own offset, by the bit formula and by the lane form; nothing else changes. -/
def Obligations.RhoRotatesEveryLaneByItsOffset : Prop :=
  ∀ s : State, s.busy = false → ∃ t, exec .rho s = .next t ∧
    t = { s with lanes := t.lanes, events := s.events.tail } ∧
    ∀ x y, x < 5 → y < 5 → rhoOffset x y < 64 ∧ lane t.lanes x y = rol64 (lane s.lanes x y) (rhoOffset x y) ∧
      ∀ z, z < 64 → bit t.lanes x y z = bit s.lanes x y ((z + 64 - rhoOffset x y) % 64)

/-- R86: lane (0,0) is unrotated, and the walk from (1,0) visits each of the other 24 lanes exactly once, the lane of step t having
the offset (t+1)(t+2)/2 mod 64; by lane index the offsets are the rule's table. -/
def Obligations.RhoOffsetsFollowTheWalk : Prop :=
  rhoOffset 0 0 = 0 ∧
  (∀ t, t < 24 → rhoOffset (rhoWalk t).1 (rhoWalk t).2 = (t + 1) * (t + 2) / 2 % 64) ∧
  (∀ x y, x < 5 → y < 5 → (x, y) ≠ (0, 0) → ∃ t, t < 24 ∧ rhoWalk t = (x, y) ∧ ∀ u, u < 24 → rhoWalk u = (x, y) → u = t) ∧
  rhoWalk 0 = (1, 0) ∧ (∀ t, rhoWalk (t + 1) = ((rhoWalk t).2, (2 * (rhoWalk t).1 + 3 * (rhoWalk t).2) % 5)) ∧
  (List.range 25).map (fun i => rhoOffset (i % 5) (i / 5)) =
    [0, 1, 62, 28, 27, 36, 44, 6, 55, 20, 3, 10, 43, 25, 39, 41, 45, 15, 21, 8, 18, 2, 61, 56, 14]

/-- R87: PI completes with the lanes moved and no bit changed within a lane; lane (0,0) stays, nothing else changes, and 24
applications of Pi are the identity. -/
def Obligations.PiMovesLanesAndHasOrder24 : Prop :=
  (∀ s : State, s.busy = false → ∃ t, exec .pi s = .next t ∧
    t = { s with lanes := t.lanes, events := s.events.tail } ∧
    (∀ x y, x < 5 → y < 5 → lane t.lanes x y = lane s.lanes ((x + 3 * y) % 5) x ∧
      ∀ z, z < 64 → bit t.lanes x y z = bit s.lanes ((x + 3 * y) % 5) x z) ∧
    t.lanes.toList = [0, 6, 12, 18, 24, 3, 9, 10, 16, 22, 1, 7, 13, 19, 20, 4, 5, 11, 17, 23, 2, 8, 14, 15, 21].map
      (fun k => s.lanes.toList.getD k 0) ∧
    t.lanes[0] = s.lanes[0]) ∧
  ∀ L : Lanes, Nat.iterate pi 24 L = L

/-- R88: CHI completes with Chi of the input lanes, by the bit formula and by the lane form; nothing else changes, and Chi is a
bijection on every row, so that two states with the same Chi have the same lanes. -/
def Obligations.ChiIsTheNonlinearRowBijection : Prop :=
  (∀ s : State, s.busy = false → ∃ t, exec .chi s = .next t ∧
    t = { s with lanes := t.lanes, events := s.events.tail } ∧
    (∀ x y z, x < 5 → y < 5 → z < 64 →
      let A := bit s.lanes
      bit t.lanes x y z = (A x y z ^^ (!(A ((x + 1) % 5) y z) && A ((x + 2) % 5) y z))) ∧
    ∀ x y, x < 5 → y < 5 →
      let L := lane s.lanes
      lane t.lanes x y = L x y ^^^ (~~~(L ((x + 1) % 5) y) &&& L ((x + 2) % 5) y)) ∧
  ∀ (L M : Lanes) (y z : Nat), y < 5 → z < 64 → (∀ x, x < 5 → bit (chi L) x y z = bit (chi M) x y z) →
    ∀ x, x < 5 → bit L x y z = bit M x y z

/-- R89, R101: with an index of at most 23, IOTA completes with L[0] XORed with the round constant the generator of R90 gives, and
nothing else changed, and made twice it restores the lanes; an index above 23 records E_ARG and changes nothing else. -/
def Obligations.IotaXorsTheRoundConstant : Prop :=
  ∀ (s : State) (ir : BitVec 5), s.busy = false →
    (ir.toNat ≤ 23 → ∃ t u, exec (.iota ir) s = .next t ∧
      t = { s with lanes := t.lanes, events := s.events.tail } ∧
      t.lanes[0] = s.lanes[0] ^^^ rcWord ir.toNat ∧
      (∀ j, ∀ hj : j < 25, j ≠ 0 → t.lanes[j] = s.lanes[j]) ∧
      exec (.iota ir) t = .next u ∧ u.lanes = s.lanes) ∧
    (24 ≤ ir.toNat → exec (.iota ir) s =
      .next { s with err := if s.err = 0 then 3 else s.err, events := s.events.tail })

/-- R91: the table of the 24 round constants, and its agreement with the shift register of R90 at every index. -/
def Obligations.RoundConstantsAreTheGeneratedOnes : Prop :=
  (List.range 24).map (fun ir => roundConstant (BitVec.ofNat 5 ir)) =
    [0x0000000000000001, 0x0000000000008082, 0x800000000000808A, 0x8000000080008000, 0x000000000000808B, 0x0000000080000001]
    ++ [0x8000000080008081, 0x8000000000008009, 0x000000000000008A, 0x0000000000000088, 0x0000000080008009, 0x000000008000000A]
    ++ [0x000000008000808B, 0x800000000000008B, 0x8000000000008089, 0x8000000000008003, 0x8000000000008002, 0x8000000000000080]
    ++ [0x000000000000800A, 0x800000008000000A, 0x8000000080008081, 0x8000000000008080, 0x0000000080000001, 0x8000000080008008] ∧
  ∀ ir, ir < 24 → roundConstant (BitVec.ofNat 5 ir) = rcWord ir

/-- R102: with an index of at most 23, ROUND completes with the lanes that THETA, RHO, PI, CHI and IOTA leave when issued in that
order, and changes nothing else, BUSY and RND included; an index above 23 records E_ARG and changes nothing else. -/
def Obligations.RoundIsTheFiveStepsInOrder : Prop :=
  ∀ (s : State) (ir : BitVec 5), s.busy = false →
    (ir.toNat ≤ 23 → ∃ t1 t2 t3 t4 t5,
      exec .theta s = .next t1 ∧ exec .rho t1 = .next t2 ∧ exec .pi t2 = .next t3 ∧ exec .chi t3 = .next t4 ∧
      exec (.iota ir) t4 = .next t5 ∧
      exec (.round ir) s = .next { s with lanes := t5.lanes, events := s.events.tail }) ∧
    (24 ≤ ir.toNat → exec (.round ir) s =
      .next { s with err := if s.err = 0 then 3 else s.err, events := s.events.tail })

/-- R103, R94: with BUSY = 0, PERMUTE starts a permutation in every phase and changes nothing else. -/
def Obligations.PermuteStartsThePermutation : Prop :=
  ∀ s : State, s.busy = false → exec .permute s = .next { s with busy := true, rnd := 0, events := s.events.tail }

/-- R93, R95: a PERMUTE with no access after it leaves, after its own step and 24 engine steps, the lanes that the rounds with index
0, 1, ..., 23 give in that order, BUSY = 0 and RND = 0, and nothing else changed. -/
def Obligations.PermuteThenTwentyFourEngineSteps : Prop :=
  ∀ s : State, s.busy = false → s.events = [issue .permute] →
    Host.Core.run Sys2Proof.core 25 s =
      .next { s with
        lanes := (List.range 24).foldl (fun L k => keccakRound L (BitVec.ofNat 5 k)) s.lanes
        busy := false
        rnd := 0
        events := [] }

/-- R95, R160: with BUSY = 1, a step with no event left, and one at an engine turn of the list, is one round of index RND; it advances
RND, or ends the permutation at 23, and touches nothing else. With BUSY = 0 the engine has no step: neither changes an element of
the block. That an engine turn stands in the list, and leaves it, is the model's choice (log entry 3). -/
def Obligations.EngineStepIsOneRound : Prop :=
  ∀ s : State,
    (s.busy = true → s.events = [] →
      (s.rnd = 23 → step s = .next { s with lanes := keccakRound s.lanes 23, busy := false, rnd := 0 }) ∧
      (s.rnd ≠ 23 → step s = .next { s with lanes := keccakRound s.lanes s.rnd, rnd := s.rnd + 1 })) ∧
    (s.busy = true → ∀ rest, s.events = .engine :: rest →
      (s.rnd = 23 → step s = .next { s with lanes := keccakRound s.lanes 23, busy := false, rnd := 0, events := rest }) ∧
      (s.rnd ≠ 23 → step s = .next { s with lanes := keccakRound s.lanes s.rnd, rnd := s.rnd + 1, events := rest })) ∧
    (s.busy = false → s.events = [] → step s = .next s) ∧
    (s.busy = false → ∀ rest, s.events = .engine :: rest → step s = .next { s with events := rest })

/-! ### Stalling and interleaving -/

/-- R57: while BUSY = 1 every command, the write of CMD, the write of DIN, the read of DOUT and both accesses of LANE[i] are held:
the access stays at the head of the host's list, and what the transition changes is one engine step, of lanes, BUSY and RND alone. -/
def Obligations.StallingAccessIsHeldWhileBusy : Prop :=
  ∀ (s : State) (i : Instr), i.wf = true → i.stalls = true → s.busy = true →
    exec i s = .next { s with
      lanes := keccakRound s.lanes s.rnd
      busy := !(decide (s.rnd = 23))
      rnd := if s.rnd = 23 then 0 else s.rnd + 1 }

/-- R57, R154: a stalled access is reached again with BUSY = 0 after 24 - RND engine steps, at most 24, that ran the rounds from RND
to 23 and changed nothing else; the next step performs it, and it completes: it has a next state, and the access has left the
list. That the engine steps while an access is held is the fairness of R183 (log entry 3). -/
def Obligations.StalledAccessCompletesAfterTheRounds : Prop :=
  ∀ (s : State) (r : Request) (rest : List Event) (i : Instr),
    s.busy = true → s.rnd.toNat ≤ 23 → s.events = .access r :: rest → decodeAccess r = .ok i → i.stalls = true →
    ∃ t u, Host.Core.run Sys2Proof.core (24 - s.rnd.toNat) s = .next t ∧
      t = { s with
        lanes := (List.range' s.rnd.toNat (24 - s.rnd.toNat)).foldl (fun L k => keccakRound L (BitVec.ofNat 5 k)) s.lanes
        busy := false
        rnd := 0 } ∧
      step t = exec i t ∧ step t = .next u ∧ u.events = rest

/-- R67, R152: an engine step and an access that does not stall give the same state in either order, except in what a STATUS read
returns, which differs in its BUSY and RND fields alone; a refused access too. Stated of instructions, of refused accesses, and of
the two runs of an engine turn and an access in either order (engine turns stand in the list by the model's choice, log entry 3). -/
def Obligations.EngineStepsCommuteWithUnstalledAccesses : Prop :=
  (∀ (s : State) (i : Instr), s.busy = true → i.stalls = false →
    ∃ t u, exec i s = .next t ∧ exec i (engineStep s) = .next u ∧
      (i ≠ .rdStatus → u = engineStep t) ∧
      (i = .rdStatus → ∃ v w, t.reads = s.reads ++ [v] ∧ u = { engineStep t with reads := s.reads ++ [w] } ∧
        v &&& 0xFFFFFFFFFFFFE0FE = w &&& 0xFFFFFFFFFFFFE0FE)) ∧
  (∀ (s : State) (r : Request) (rest : List Event) (e : Reject), s.events = .access r :: rest → decodeAccess r = .error e →
    s.busy = true → ∃ t, step s = .next t ∧ step (engineStep s) = .next (engineStep t)) ∧
  ∀ (s : State) (r : Request) (rest : List Event),
    (∀ i, decodeAccess r = .ok i → i.stalls = false) →
    ∃ t u, Host.Core.run Sys2Proof.core 2 { s with events := .engine :: .access r :: rest } = .next t ∧
      Host.Core.run Sys2Proof.core 2 { s with events := .access r :: .engine :: rest } = .next u ∧
      t.events = rest ∧ u.events = rest ∧
      (decodeAccess r ≠ .ok .rdStatus → t = u) ∧
      (decodeAccess r = .ok .rdStatus → ∃ v w, t.reads = s.reads ++ [v] ∧ u.reads = s.reads ++ [w] ∧
        t = { u with reads := t.reads } ∧ v &&& 0xFFFFFFFFFFFFE0FE = w &&& 0xFFFFFFFFFFFFE0FE)

/-! ### The sponge -/

/-- R108: an INIT of a function 0..3, or of SHAKE128 or SHAKE256 with OUTLEN other than 0, in any phase with BUSY = 0, zeroes the
lanes, clears ERR, latches the function and its output length, clears the pointers and enters ABSORB; nothing else changes. -/
def Obligations.InitBeginsAHash : Prop :=
  ∀ (s : State) (f : SpongeFn), s.busy = false → s.func = f.num → (isXof f.num = true → s.outlen ≠ 0) →
    exec .init s = .next { s with
      lanes := Vector.replicate 25 0
      phase := .absorb
      err := 0
      lptr := 0
      optr := 0
      lfunc := f.num
      rem := (match f.digestBits with | some d => BitVec.ofNat 64 d | none => s.outlen)
      events := s.events.tail }

/-- R108: a refused INIT, with BUSY = 0, clears ERR and then records E_MODE (FUNC 6 or 7) or E_LEN (an XOF with OUTLEN = 0), and
abandons the sponge; the lanes and LFUNC stay. -/
def Obligations.RefusedInitAbandonsTheHash : Prop :=
  ∀ s : State, s.busy = false → 6 ≤ s.func.toNat ∨ ((s.func = 4 ∨ s.func = 5) ∧ s.outlen = 0) →
    exec .init s = .next { s with
      phase := .idle
      err := if 6 ≤ s.func.toNat then 5 else 6
      lptr := 0
      optr := 0
      rem := 0
      events := s.events.tail }

/-- Conflict C4 with R108: a hash is independent of every earlier one. Two blocks that hold the same MODE and OUTLEN, and differ in
anything else of their own, are equal after an accepted INIT. -/
def Obligations.AcceptedInitForgetsEarlierHashes : Prop :=
  ∀ (s t : State) (f : SpongeFn), Invariants s → Invariants t → s.busy = false → t.busy = false →
    s.func = f.num → t.func = f.num → s.outlen = t.outlen → (isXof f.num = true → s.outlen ≠ 0) →
    s.events = t.events → s.reads = t.reads → exec .init s = exec .init t

/-- R109: with BUSY = 0 in ABSORB, a DIN write XORs its word into the lane at LPTR and advances LPTR; the RL-th word of a block
clears LPTR and starts the permutation. Outside ABSORB it records E_PHASE and changes nothing else. -/
def Obligations.DinAbsorbsOneWord : Prop :=
  ∀ (s : State) (v : Word) (f : SpongeFn), Invariants s → s.busy = false → s.lfunc = f.num →
    (s.phase = .absorb → ∃ t, exec (.wrDin v) s = .next t ∧
      (∀ j, ∀ hj : j < 25, t.lanes[j] = if j = s.lptr.toNat then s.lanes[j] ^^^ v else s.lanes[j]) ∧
      (s.lptr.toNat + 1 < f.rate / 64 → t = { s with
        lanes := t.lanes, lptr := BitVec.ofNat 5 (s.lptr.toNat + 1), events := s.events.tail }) ∧
      (s.lptr.toNat + 1 = f.rate / 64 → t = { s with
        lanes := t.lanes, lptr := 0, busy := true, rnd := 0, events := s.events.tail })) ∧
    (s.phase ≠ .absorb → exec (.wrDin v) s =
      .next { s with err := if s.err = 0 then 4 else s.err, events := s.events.tail })

/-- R110, R78: with BUSY = 0 in ABSORB, FINAL XORs the NB tail bytes and the suffix byte into the lane at LPTR and the last pad bit
into the last rate lane, enters SQUEEZE with both pointers clear and starts the permutation; tail bytes from NB on have no effect.
Outside ABSORB it records E_PHASE and changes nothing else. -/
def Obligations.FinalPadsAndStartsSqueezing : Prop :=
  ∀ (s : State) (nb : BitVec 3) (tail : BitVec 56) (f : SpongeFn), Invariants s → s.busy = false → s.lfunc = f.num →
    (s.phase = .absorb → ∃ t, exec (.final nb tail) s = .next t ∧
      t = { s with
        lanes := t.lanes, phase := .squeeze, lptr := 0, optr := 0, busy := true, rnd := 0, events := s.events.tail } ∧
      ∀ j, ∀ hj : j < 25, ∀ z, z < 64 →
        let sfx : BitVec 8 := if isXof f.num then 0x1F else 0x06
        let w := if z < 8 * nb.toNat then tail.getLsbD z else sfx.getLsbD (z - 8 * nb.toNat)
        t.lanes[j].getLsbD z =
          (s.lanes[j].getLsbD z ^^ (decide (j = s.lptr.toNat) && w) ^^ (decide (j + 1 = f.rate / 64) && decide (z = 63)))) ∧
    (s.phase ≠ .absorb → exec (.final nb tail) s =
      .next { s with err := if s.err = 0 then 4 else s.err, events := s.events.tail })

/-- R111: FINAL with the last 0..7 message bytes XORs into the state exactly the rest of the padded message in the current block:
those bytes, the suffix and pad10*1 of R105 after the bits already absorbed; they end the block, so no second block is needed. -/
def Obligations.FinalRealisesPad101 : Prop :=
  ∀ (s : State) (f : SpongeFn) (bs : List Byte), Invariants s → s.busy = false → s.phase = .absorb → s.lfunc = f.num → bs.length < 8 →
    let mb := 64 * s.lptr.toNat + 8 * bs.length
    let block : Bits := List.replicate (64 * s.lptr.toNat) false ++ messageBits bs ++ f.suffix ++
      pad101 f.rate (mb + f.suffix.length)
    block.length = f.rate ∧
    ∃ t, exec (.final (BitVec.ofNat 3 bs.length) (BitVec.ofNat 56 (packBytes bs))) s = .next t ∧
      ∀ j, ∀ hj : j < 25, t.lanes[j] = s.lanes[j] ^^^ (lanesOfBits block)[j]

/-- R113: with BUSY = 0 in SQUEEZE, a DOUT read returns the low min(REM, 64) bits of the lane at OPTR and zeros above, lowers REM by
that number and advances OPTR; at REM = 0 it enters DONE and starts no permutation, and an emptied block with output still due
starts one. Outside SQUEEZE it returns 0, records E_PHASE and changes nothing else. -/
def Obligations.DoutDeliversOneWord : Prop :=
  ∀ (s : State) (f : SpongeFn), Invariants s → s.busy = false → s.lfunc = f.num →
    (s.phase = .squeeze → ∃ (w : Word) (t : State), exec .rdDout s = .next t ∧
      (∀ h : s.optr.toNat < 25, ∀ z, z < 64 → w.getLsbD z = (decide (z < s.rem.toNat) && s.lanes[s.optr.toNat].getLsbD z)) ∧
      s.optr.toNat < f.rate / 64 ∧
      (s.rem.toNat ≤ 64 → t = { s with
        rem := 0, optr := BitVec.ofNat 5 (s.optr.toNat + 1), phase := .done,
        events := s.events.tail, reads := s.reads ++ [w] }) ∧
      (64 < s.rem.toNat → s.optr.toNat + 1 < f.rate / 64 → t = { s with
        rem := BitVec.ofNat 64 (s.rem.toNat - 64), optr := BitVec.ofNat 5 (s.optr.toNat + 1),
        events := s.events.tail, reads := s.reads ++ [w] }) ∧
      (64 < s.rem.toNat → s.optr.toNat + 1 = f.rate / 64 → t = { s with
        rem := BitVec.ofNat 64 (s.rem.toNat - 64), optr := 0, busy := true, rnd := 0,
        events := s.events.tail, reads := s.reads ++ [w] })) ∧
    (s.phase ≠ .squeeze → exec .rdDout s =
      .next { s with err := if s.err = 0 then 4 else s.err, events := s.events.tail, reads := s.reads ++ [0] })

/-- R112: DIN and FINAL never write the capacity lanes L[RL..24]. -/
def Obligations.CapacityLanesAreNeverAbsorbedInto : Prop :=
  ∀ (s : State) (i : Instr) (f : SpongeFn), Invariants s → s.busy = false → s.lfunc = f.num →
    ((∃ v, i = .wrDin v) ∨ ∃ nb tail, i = .final nb tail) →
    ∃ t, exec i s = .next t ∧ ∀ j, ∀ hj : j < 25, f.rate / 64 ≤ j → t.lanes[j] = s.lanes[j]

/-- R105, R106, R111: the padded message is a whole number of blocks, floor(|M| / (8*RL)) + 1 of them. -/
def Obligations.PaddedMessageIsWholeBlocks : Prop :=
  ∀ (f : SpongeFn) (M : List Byte),
    (paddedMessage f M).length = (M.length / (8 * (f.rate / 64)) + 1) * f.rate

/-- R115, R107: the sponge delivers exactly the n bits it was asked for. -/
def Obligations.SpongeOutputHasItsLength : Prop :=
  ∀ (f : SpongeFn) (M : List Byte) (n : Nat), (sponge f M n).length = n

/-- R116: of two outputs of one function for one message, the shorter is the beginning of the longer. -/
def Obligations.ShorterOutputIsAPrefix : Prop :=
  ∀ (f : SpongeFn) (M : List Byte) (n m : Nat), n ≤ m → sponge f M n = (sponge f M m).take n

/-- R118, R114, R67: from every state, with the accesses of the procedure `hash f, M, n` at the head of the host's list and any
engine turns before, between and after them, the run reads exactly the words of SPONGE(f, M, n), whose bytes are the digest; when
the list that followed is reached, the lanes hold the last squeezed state, PHASE is DONE, BUSY, ERR, REM and LPTR are zero,
LFUNC = f, and OPTR is as R118 gives it. (Engine turns stand in the list by the model's choice, log entry 3.) -/
def Obligations.HashProcedureComputesTheSponge : Prop :=
  ∀ (f : SpongeFn) (M : List Byte) (n : Nat) (s : State) (es rest : List Event),
    f.admits n = true → withoutEngineTurns es = hashProcedure f M n → s.events = es ++ rest →
    ∃ (k : Nat) (t : State), Host.Core.run Sys2Proof.core k s = .next t ∧
      t.events = rest ∧
      t.reads = s.reads ++ wordsOfBits (sponge f M n) ∧
      digestBytes (t.reads.drop s.reads.length) n = bytesOfBits (sponge f M n) ∧
      t.lanes = lanesOfBits (lastSqueezed f M n) ∧
      t.phase = .done ∧ t.busy = false ∧ t.err = 0 ∧ t.rem = 0 ∧ t.lptr = 0 ∧ t.lfunc = f.num ∧
      t.optr.toNat = (outputWords n - 1) % (f.rate / 64) + 1

/-! ### Control, errors, reset -/

/-- R122, R123: with BUSY = 0, NOP completes and changes nothing, and CLRERR clears ERR and changes nothing else. -/
def Obligations.NopAndClrerrComplete : Prop :=
  ∀ s : State, s.busy = false →
    exec .nop s = .next { s with events := s.events.tail } ∧
    exec .clrerr s = .next { s with err := 0, events := s.events.tail }

/-- R170, R47: the reset event gives every state element its reset value in one transition, whatever the state, a permutation in
progress included; then STATUS reads 0x0000000048000000, REMAIN reads 0 and ID reads its word. The host's list and the data read are
not the block's and stay (log entries 1 and 2: the model's own fields). -/
def Obligations.ResetEventGivesTheResetState : Prop :=
  ∀ (s : State) (rest : List Event), s.events = .reset :: rest →
    ∃ t, step s = .next t ∧ t.events = rest ∧ t.reads = s.reads ∧
      (∀ j, ∀ hj : j < 25, t.lanes[j] = 0) ∧
      t.busy = false ∧ t.phase = .idle ∧ t.rnd = 0 ∧ t.err = 0 ∧ t.lptr = 0 ∧ t.optr = 0 ∧ t.lfunc = 0 ∧ t.rem = 0 ∧
      t.func = 0 ∧ t.outlen = 0 ∧
      (∃ u, exec .rdStatus t = .next u ∧ u.reads = t.reads ++ [0x0000000048000000]) ∧
      (∃ u, exec .rdRemain t = .next u ∧ u.reads = t.reads ++ [0]) ∧
      (∃ u, exec .rdId t = .next u ∧ u.reads = t.reads ++ [0x4B45434306400001])

/-- R171, R124: with BUSY = 0, SRESET completes in the state that the reset event gives. -/
def Obligations.SresetEqualsTheResetEvent : Prop :=
  ∀ (s : State) (r : Request) (rest : List Event), s.busy = false → s.events = .access r :: rest →
    exec .sreset s = step { s with events := .reset :: rest } ∧
    exec .sreset s = .next { State.reset with events := rest, reads := s.reads }

/-- R173: a reset while an access is outstanding is refused, so that no run goes on from it. -/
def Obligations.ResetDuringAnAccessIsRefused : Prop :=
  ∀ (s : State) (r : Request) (rest : List Event), s.events = .resetDuring r :: rest → step s = .refused .resetDuringAccess

/-- R144, R154: every instruction answers a next state in every state, and a step has no next state only where R173 refuses it. -/
def Obligations.NothingStopsButTheRefusedReset : Prop :=
  (∀ (i : Instr) (s : State), ∃ t, exec i s = .next t) ∧
  ∀ s : State, (∃ t, step s = .next t) ∨ ∃ r rest, s.events = .resetDuring r :: rest ∧ step s = .refused .resetDuringAccess

/-- R147, R149: a step changes ERR only so: an error recorded where none stood, or ERR cleared by the reset event, SRESET, CLRERR or
INIT (which may then record its own error), by a write of CMD with BUSY = 0. So the first error stands until one of these. -/
def Obligations.FirstErrorStandsUntilCleared : Prop :=
  ∀ s t : State, step s = .next t → t.err ≠ s.err →
    (s.err = 0 ∧ 1 ≤ t.err.toNat ∧ t.err.toNat ≤ 6) ∨
    (t.err = 0 ∧ ∃ rest, s.events = .reset :: rest) ∨
    (s.busy = false ∧ ∃ r rest v, s.events = .access r :: rest ∧ decodeAccess r = .ok (.wrCmd v) ∧
      ((decodeCommand v = .ok .clrerr ∧ t.err = 0) ∨ (decodeCommand v = .ok .sreset ∧ t.err = 0) ∨
        (decodeCommand v = .ok .init ∧ (t.err = 0 ∨ t.err = 5 ∨ t.err = 6))))

/-- R33: the phase changes only so: INIT to ABSORB, or to IDLE where INIT is refused (R108), from any phase; FINAL from ABSORB to
SQUEEZE; the DOUT read that exhausts REM from SQUEEZE to DONE; SRESET and the reset event to IDLE. -/
def Obligations.PhaseChangesOnlyByTheProtocol : Prop :=
  ∀ s t : State, step s = .next t → t.phase ≠ s.phase →
    (t.phase = .idle ∧ ∃ rest, s.events = .reset :: rest) ∨
    (s.busy = false ∧ ∃ r rest, s.events = .access r :: rest ∧
      ((s.phase = .squeeze ∧ t.phase = .done ∧ t.rem = 0 ∧ decodeAccess r = .ok .rdDout) ∨
        ∃ v, decodeAccess r = .ok (.wrCmd v) ∧
          ((decodeCommand v = .ok .init ∧ (t.phase = .absorb ∧ t.err = 0 ∨ t.phase = .idle ∧ t.err ≠ 0)) ∨
            (decodeCommand v = .ok .sreset ∧ t.phase = .idle) ∨
            ∃ nb tail, decodeCommand v = .ok (.final nb tail) ∧ s.phase = .absorb ∧ t.phase = .squeeze)))

/-- R32, R94: BUSY is set, with RND cleared, only by PERMUTE, by the DIN write that completes a block, by FINAL and by the DOUT read
that empties a block with output still due; it is cleared only by the engine step of round 23 or by the reset event. -/
def Obligations.BusyChangesOnlyByStartAndLastRound : Prop :=
  ∀ s t : State, step s = .next t →
    (s.busy = false → t.busy = true → t.rnd = 0 ∧ ∃ r rest, s.events = .access r :: rest ∧
      ((∃ v, decodeAccess r = .ok (.wrCmd v) ∧ (decodeCommand v = .ok .permute ∨
          ∃ nb tail, decodeCommand v = .ok (.final nb tail) ∧ s.phase = .absorb)) ∨
        (∃ v, decodeAccess r = .ok (.wrDin v) ∧ s.phase = .absorb ∧ t.lptr = 0) ∨
        (decodeAccess r = .ok .rdDout ∧ s.phase = .squeeze ∧ t.optr = 0 ∧ t.rem ≠ 0))) ∧
    (s.busy = true → t.busy = false →
      (∃ rest, s.events = .reset :: rest) ∨ (s.rnd = 23 ∧ t.rnd = 0 ∧ t.lanes = keccakRound s.lanes 23))

/-- R38, R39, R51: the latched function changes only by INIT, SRESET or the reset event, and REM only by those and by a DOUT read. -/
def Obligations.FunctionAndRemainChangeOnlyByTheirOperations : Prop :=
  ∀ s t : State, step s = .next t → (t.lfunc ≠ s.lfunc ∨ t.rem ≠ s.rem) →
    (∃ rest, s.events = .reset :: rest) ∨
    (s.busy = false ∧ ∃ r rest, s.events = .access r :: rest ∧
      ((∃ v, decodeAccess r = .ok (.wrCmd v) ∧ (decodeCommand v = .ok .init ∨ decodeCommand v = .ok .sreset)) ∨
        (decodeAccess r = .ok .rdDout ∧ s.phase = .squeeze ∧ t.lfunc = s.lfunc ∧ t.rem.toNat < s.rem.toNat)))

/-- R49: the invariants hold in the reset state (R174). -/
def Obligations.ResetStateMeetsTheInvariants : Prop :=
  Invariants State.reset

/-- R49, R174: every step keeps the invariants, from every state that meets them. -/
def Obligations.EveryStepKeepsTheInvariants : Prop :=
  ∀ s t : State, Invariants s → step s = .next t → Invariants t

/-- R49 (d), (e), R112: in a state that meets the invariants, every access that reads or writes the lane at a pointer finds a lane
of the rate part: LPTR is below RL, and so is OPTR in SQUEEZE. -/
def Obligations.PointersStayInTheRatePart : Prop :=
  ∀ (k : Nat) (s t : State), Invariants s → Host.Core.run Sys2Proof.core k s = .next t →
    ∃ f : SpongeFn, t.lfunc = f.num ∧ t.lptr.toNat < f.rate / 64 ∧ (t.phase = .squeeze → t.optr.toNat < f.rate / 64)

/-! ### Several blocks -/

/-- R158, R52, R9: a block whose step has a next state takes it, and every other block stays as it was. A platform access in the
window of a block reaches that block as the access at its offset there, is added to that block's list, and changes no other block;
an access in no window reaches no block. That the first block takes it where windows overlap, and that BASE and the number of
blocks are the list's own data, is the model's choice (log entry 10). -/
def Obligations.BlocksShareNothing : Prop :=
  (∀ (p : Platform) (k : Nat) (b : Block) (t : State), p[k]? = some b → step b.state = .next t →
    p.stepBlock k = some (p.set k { b with state := t })) ∧
  (∀ (p q : Platform) (k : Nat), p.stepBlock k = some q → q.length = p.length ∧ ∀ j, j ≠ k → q[j]? = p[j]?) ∧
  (∀ (a : PlatformAccess) (base : Nat),
    (base ≤ a.addr → a.addr < base + 512 → a.at base =
      some (match a.wdata with
        | none => .read (BitVec.ofNat 9 (a.addr - base)) a.be
        | some v => .write (BitVec.ofNat 9 (a.addr - base)) a.be v)) ∧
    (a.addr < base ∨ base + 512 ≤ a.addr → a.at base = none)) ∧
  (∀ (p : Platform) (a : PlatformAccess) (k : Nat) (b : Block) (r : Request), p[k]? = some b → a.at b.base = some r →
    (∀ j c, j < k → p[j]? = some c → a.at c.base = none) →
    p.route a = some (p.set k { b with state := { b.state with events := b.state.events ++ [.access r] } })) ∧
  (∀ (p : Platform) (a : PlatformAccess), p.route a = none ↔ ∀ b ∈ p, a.addr < b.base ∨ b.base + 512 ≤ a.addr) ∧
  ∀ (p q : Platform) (a : PlatformAccess), p.route a = some q →
    ∃ (k : Nat) (b : Block) (r : Request), p[k]? = some b ∧ a.at b.base = some r ∧
      b.base ≤ a.addr ∧ a.addr < b.base + 512 ∧
      q[k]? = some { b with state := { b.state with events := b.state.events ++ [.access r] } } ∧
      ∀ j, j ≠ k → q[j]? = p[j]?

/-! ### The host's loop -/

/-- R83, R57: `poll` reads STATUS until bit 0 of the value is 0. Wherever it ends, every value it read but the last has bit 0 set, the
last has it clear, BUSY is 0, the host goes on with its list, and it made the STATUS reads of its turns and no other access. With
BUSY = 0 it ends at its first read. With BUSY = 1 it ends if as many engine turns fall between its reads as there are rounds left,
with those rounds run and nothing else of the block changed (how many fall before each read is data; log entries 3 and 15). -/
def Obligations.PollEndsAtTheFirstReadWithBusyClear : Prop :=
  (∀ (s t : State) (gaps : List Nat), poll gaps s = some t →
    (∃ (vs : List Word) (v : Word), t.reads = s.reads ++ vs ++ [v] ∧ (∀ u ∈ vs, u.getLsbD 0 = true) ∧ v.getLsbD 0 = false ∧
      vs.length < gaps.length ∧
      ∃ k, Host.Core.run Sys2Proof.core k { s with events := pollTurns (gaps.take (vs.length + 1)) ++ s.events } = .next t) ∧
    t.busy = false ∧ t.events = s.events) ∧
  (∀ (s : State) (g : Nat) (gaps : List Nat), s.busy = false →
    ∃ t, poll (g :: gaps) s = some t ∧ exec .rdStatus { s with events := rdReg .status :: s.events } = .next t) ∧
  ∀ (s : State) (gaps : List Nat), s.busy = true → s.rnd.toNat ≤ 23 → 24 - s.rnd.toNat ≤ gaps.sum →
    ∃ t, poll gaps s = some t ∧ t = { s with
      lanes := (List.range' s.rnd.toNat (24 - s.rnd.toNat)).foldl (fun L k => keccakRound L (BitVec.ofNat 5 k)) s.lanes
      busy := false
      rnd := 0
      reads := t.reads }
end

