-- ==== Sys2Proof/Laws/Decode.lean ====
section
/-! SUPPORT. The fields of an encoded command word, and what the two decoders can answer. -/

namespace Sys2Proof

@[simp] theorem opField_wordC0 (op : BitVec 5) : opField (wordC0 op) = op := by
  apply BitVec.eq_of_getLsbD_eq
  intro i hi
  simp [opField, wordC0, hi, show i < 64 by omega]

@[simp] theorem c0Clear_wordC0 (op : BitVec 5) : c0Clear (wordC0 op) = true := by
  have h : (wordC0 op).extractLsb' 5 59 = 0 := by
    apply BitVec.eq_of_getLsbD_eq
    intro i hi
    simp [wordC0]
  simp [c0Clear, h]

@[simp] theorem opField_wordCR (op ir : BitVec 5) : opField (wordCR op ir) = op := by
  apply BitVec.eq_of_getLsbD_eq
  intro i hi
  simp [opField, wordCR, hi, show i < 64 by omega, show i < 8 by omega]

@[simp] theorem irField_wordCR (op ir : BitVec 5) : irField (wordCR op ir) = ir := by
  apply BitVec.eq_of_getLsbD_eq
  intro i hi
  simp [irField, wordCR, hi, show 8 + i < 64 by omega, BitVec.getLsbD_of_ge op (8 + i) (by omega)]

@[simp] theorem crClear_wordCR (op ir : BitVec 5) : crClear (wordCR op ir) = true := by
  have h1 : nbField (wordCR op ir) = 0 := by
    apply BitVec.eq_of_getLsbD_eq
    intro i hi
    simp [nbField, wordCR, show 5 + i < 8 by omega]
  have h2 : (wordCR op ir).extractLsb' 13 51 = 0 := by
    apply BitVec.eq_of_getLsbD_eq
    intro i hi
    simp [wordCR, BitVec.getLsbD_of_ge op (13 + i) (by omega), BitVec.getLsbD_of_ge ir (13 + i - 8) (by omega)]
  simp [crClear, h1, h2]

@[simp] theorem opField_wordCF (nb : BitVec 3) (tail : BitVec 56) : opField (wordCF nb tail) = 2 := by
  apply BitVec.eq_of_getLsbD_eq
  intro i hi
  have h2 : (2#64).getLsbD i = (2#5).getLsbD i := by revert i; decide
  simp [opField, wordCF, h2, hi, show i < 8 by omega]

@[simp] theorem nbField_wordCF (nb : BitVec 3) (tail : BitVec 56) : nbField (wordCF nb tail) = nb := by
  apply BitVec.eq_of_getLsbD_eq
  intro i hi
  have h2 : (2#64)[5 + i]'(by omega) = false := by
    rw [← BitVec.getLsbD_eq_getElem]; revert i; decide
  simp [nbField, wordCF, h2, hi, show 5 + i < 64 by omega, show 5 + i < 8 by omega]

@[simp] theorem tailField_wordCF (nb : BitVec 3) (tail : BitVec 56) : tailField (wordCF nb tail) = tail := by
  apply BitVec.eq_of_getLsbD_eq
  intro i hi
  have h2 : (2#64)[8 + i]'(by omega) = false := by
    rw [← BitVec.getLsbD_eq_getElem]; revert i; decide
  simp [tailField, wordCF, h2, hi, show 8 + i < 64 by omega,
    BitVec.getLsbD_of_ge nb (8 + i - 5) (by omega)]

/-- A C0 word decodes to the command it was decoded for, or has a reserved bit set. -/
theorem decodeC0_cases (v : Word) (i j : Instr) (h : decodeC0 v i = .ok j) : j = i ∧ c0Clear v = true := by
  unfold decodeC0 at h
  split at h
  · exact ⟨by injection h with h; exact h.symm, by assumption⟩
  · cases h

/-- A CR word decodes to its command at its own index, which is at most 23. -/
theorem decodeCR_cases (v : Word) (i : BitVec 5 → Instr) (j : Instr) (h : decodeCR v i = .ok j) :
    j = i (irField v) ∧ crClear v = true ∧ (irField v).toNat ≤ 23 := by
  unfold decodeCR at h
  split at h
  · split at h
    · exact ⟨by injection h with h; exact h.symm, by assumption, by assumption⟩
    · cases h
  · cases h

/-- Every command word that decodes is one of the twelve commands, with operands its format admits (R76). -/
theorem decodeCommand_isCommand (v : Word) (i : Instr) (h : decodeCommand v = .ok i) : i.isCommand = true ∧ i.wf = true := by
  unfold decodeCommand at h
  split at h <;>
    first
    | (obtain ⟨rfl, -⟩ := decodeC0_cases v _ i h; exact ⟨rfl, rfl⟩)
    | (obtain ⟨rfl, -, hir⟩ := decodeCR_cases v _ i h; exact ⟨rfl, decide_eq_true hir⟩)
    | (injection h with h; subst h; exact ⟨rfl, rfl⟩)
    | cases h

/-- The register at the offset of a register is that register, for the 33 registers of the window (R53). -/
theorem regAt_offset_lane (i : BitVec 5) (h : i.toNat ≤ 24) : regAt (Reg.offset (.lane i)) = some (.lane i) := by
  revert i; decide

/-- No transaction decodes to a command row: a command is reached through the write of CMD (R121). -/
theorem decodeAccess_not_command (r : Request) (i : Instr) (h : decodeAccess r = .ok i) : i.isCommand = false := by
  cases r <;> simp only [decodeAccess] at h <;> split at h <;>
    first
    | (split at h <;> first | (injection h with h; subst h; rfl) | cases h)
    | cases h

end Sys2Proof
end

