-- ==== Sys2Proof/Laws/State.lean ====
section
/-! SUPPORT. One lemma per field and shared update of State. -/

namespace Sys2Proof.Machine

@[simp] theorem retire_lanes (s : State) : (retire s).lanes = s.lanes := rfl
@[simp] theorem retire_busy (s : State) : (retire s).busy = s.busy := rfl
@[simp] theorem retire_phase (s : State) : (retire s).phase = s.phase := rfl
@[simp] theorem retire_rnd (s : State) : (retire s).rnd = s.rnd := rfl
@[simp] theorem retire_err (s : State) : (retire s).err = s.err := rfl
@[simp] theorem retire_lptr (s : State) : (retire s).lptr = s.lptr := rfl
@[simp] theorem retire_optr (s : State) : (retire s).optr = s.optr := rfl
@[simp] theorem retire_lfunc (s : State) : (retire s).lfunc = s.lfunc := rfl
@[simp] theorem retire_rem (s : State) : (retire s).rem = s.rem := rfl
@[simp] theorem retire_func (s : State) : (retire s).func = s.func := rfl
@[simp] theorem retire_outlen (s : State) : (retire s).outlen = s.outlen := rfl
@[simp] theorem retire_events (s : State) : (retire s).events = s.events.tail := rfl
@[simp] theorem retire_reads (s : State) : (retire s).reads = s.reads := rfl

@[simp] theorem respond_lanes (v : Word) (s : State) : (respond v s).lanes = s.lanes := rfl
@[simp] theorem respond_busy (v : Word) (s : State) : (respond v s).busy = s.busy := rfl
@[simp] theorem respond_phase (v : Word) (s : State) : (respond v s).phase = s.phase := rfl
@[simp] theorem respond_rnd (v : Word) (s : State) : (respond v s).rnd = s.rnd := rfl
@[simp] theorem respond_err (v : Word) (s : State) : (respond v s).err = s.err := rfl
@[simp] theorem respond_lptr (v : Word) (s : State) : (respond v s).lptr = s.lptr := rfl
@[simp] theorem respond_optr (v : Word) (s : State) : (respond v s).optr = s.optr := rfl
@[simp] theorem respond_lfunc (v : Word) (s : State) : (respond v s).lfunc = s.lfunc := rfl
@[simp] theorem respond_rem (v : Word) (s : State) : (respond v s).rem = s.rem := rfl
@[simp] theorem respond_func (v : Word) (s : State) : (respond v s).func = s.func := rfl
@[simp] theorem respond_outlen (v : Word) (s : State) : (respond v s).outlen = s.outlen := rfl
@[simp] theorem respond_events (v : Word) (s : State) : (respond v s).events = s.events := rfl
@[simp] theorem respond_reads (v : Word) (s : State) : (respond v s).reads = s.reads ++ [v] := rfl

@[simp] theorem startPerm_lanes (s : State) : (startPerm s).lanes = s.lanes := rfl
@[simp] theorem startPerm_busy (s : State) : (startPerm s).busy = true := rfl
@[simp] theorem startPerm_phase (s : State) : (startPerm s).phase = s.phase := rfl
@[simp] theorem startPerm_rnd (s : State) : (startPerm s).rnd = 0 := rfl
@[simp] theorem startPerm_err (s : State) : (startPerm s).err = s.err := rfl
@[simp] theorem startPerm_lptr (s : State) : (startPerm s).lptr = s.lptr := rfl
@[simp] theorem startPerm_optr (s : State) : (startPerm s).optr = s.optr := rfl
@[simp] theorem startPerm_lfunc (s : State) : (startPerm s).lfunc = s.lfunc := rfl
@[simp] theorem startPerm_rem (s : State) : (startPerm s).rem = s.rem := rfl
@[simp] theorem startPerm_func (s : State) : (startPerm s).func = s.func := rfl
@[simp] theorem startPerm_outlen (s : State) : (startPerm s).outlen = s.outlen := rfl
@[simp] theorem startPerm_events (s : State) : (startPerm s).events = s.events := rfl
@[simp] theorem startPerm_reads (s : State) : (startPerm s).reads = s.reads := rfl

@[simp] theorem engineStep_lanes (s : State) : (engineStep s).lanes = keccakRound s.lanes s.rnd := by simp only [engineStep]
@[simp] theorem engineStep_busy (s : State) : (engineStep s).busy = if s.rnd = 23 then false else s.busy := by simp only [engineStep]
@[simp] theorem engineStep_phase (s : State) : (engineStep s).phase = s.phase := by simp only [engineStep]
@[simp] theorem engineStep_rnd (s : State) : (engineStep s).rnd = if s.rnd = 23 then 0 else s.rnd + 1 := by simp only [engineStep]
@[simp] theorem engineStep_err (s : State) : (engineStep s).err = s.err := by simp only [engineStep]
@[simp] theorem engineStep_lptr (s : State) : (engineStep s).lptr = s.lptr := by simp only [engineStep]
@[simp] theorem engineStep_optr (s : State) : (engineStep s).optr = s.optr := by simp only [engineStep]
@[simp] theorem engineStep_lfunc (s : State) : (engineStep s).lfunc = s.lfunc := by simp only [engineStep]
@[simp] theorem engineStep_rem (s : State) : (engineStep s).rem = s.rem := by simp only [engineStep]
@[simp] theorem engineStep_func (s : State) : (engineStep s).func = s.func := by simp only [engineStep]
@[simp] theorem engineStep_outlen (s : State) : (engineStep s).outlen = s.outlen := by simp only [engineStep]
@[simp] theorem engineStep_events (s : State) : (engineStep s).events = s.events := by simp only [engineStep]
@[simp] theorem engineStep_reads (s : State) : (engineStep s).reads = s.reads := by simp only [engineStep]

@[simp] theorem blockReset_lanes (s : State) : (blockReset s).lanes = Vector.replicate 25 0 := rfl
@[simp] theorem blockReset_busy (s : State) : (blockReset s).busy = false := rfl
@[simp] theorem blockReset_phase (s : State) : (blockReset s).phase = .idle := rfl
@[simp] theorem blockReset_rnd (s : State) : (blockReset s).rnd = 0 := rfl
@[simp] theorem blockReset_err (s : State) : (blockReset s).err = 0 := rfl
@[simp] theorem blockReset_lptr (s : State) : (blockReset s).lptr = 0 := rfl
@[simp] theorem blockReset_optr (s : State) : (blockReset s).optr = 0 := rfl
@[simp] theorem blockReset_lfunc (s : State) : (blockReset s).lfunc = 0 := rfl
@[simp] theorem blockReset_rem (s : State) : (blockReset s).rem = 0 := rfl
@[simp] theorem blockReset_func (s : State) : (blockReset s).func = 0 := rfl
@[simp] theorem blockReset_outlen (s : State) : (blockReset s).outlen = 0 := rfl
@[simp] theorem blockReset_events (s : State) : (blockReset s).events = s.events := rfl
@[simp] theorem blockReset_reads (s : State) : (blockReset s).reads = s.reads := rfl

@[simp] theorem mapLanes_lanes (f : Lanes → Lanes) (s : State) : (mapLanes f s).lanes = f s.lanes := rfl
@[simp] theorem mapLanes_busy (f : Lanes → Lanes) (s : State) : (mapLanes f s).busy = s.busy := rfl
@[simp] theorem mapLanes_phase (f : Lanes → Lanes) (s : State) : (mapLanes f s).phase = s.phase := rfl
@[simp] theorem mapLanes_rnd (f : Lanes → Lanes) (s : State) : (mapLanes f s).rnd = s.rnd := rfl
@[simp] theorem mapLanes_err (f : Lanes → Lanes) (s : State) : (mapLanes f s).err = s.err := rfl
@[simp] theorem mapLanes_lptr (f : Lanes → Lanes) (s : State) : (mapLanes f s).lptr = s.lptr := rfl
@[simp] theorem mapLanes_optr (f : Lanes → Lanes) (s : State) : (mapLanes f s).optr = s.optr := rfl
@[simp] theorem mapLanes_lfunc (f : Lanes → Lanes) (s : State) : (mapLanes f s).lfunc = s.lfunc := rfl
@[simp] theorem mapLanes_rem (f : Lanes → Lanes) (s : State) : (mapLanes f s).rem = s.rem := rfl
@[simp] theorem mapLanes_func (f : Lanes → Lanes) (s : State) : (mapLanes f s).func = s.func := rfl
@[simp] theorem mapLanes_outlen (f : Lanes → Lanes) (s : State) : (mapLanes f s).outlen = s.outlen := rfl
@[simp] theorem mapLanes_events (f : Lanes → Lanes) (s : State) : (mapLanes f s).events = s.events := rfl
@[simp] theorem mapLanes_reads (f : Lanes → Lanes) (s : State) : (mapLanes f s).reads = s.reads := rfl

@[simp] theorem clearErr_lanes (s : State) : (clearErr s).lanes = s.lanes := rfl
@[simp] theorem clearErr_busy (s : State) : (clearErr s).busy = s.busy := rfl
@[simp] theorem clearErr_phase (s : State) : (clearErr s).phase = s.phase := rfl
@[simp] theorem clearErr_rnd (s : State) : (clearErr s).rnd = s.rnd := rfl
@[simp] theorem clearErr_err (s : State) : (clearErr s).err = 0 := rfl
@[simp] theorem clearErr_lptr (s : State) : (clearErr s).lptr = s.lptr := rfl
@[simp] theorem clearErr_optr (s : State) : (clearErr s).optr = s.optr := rfl
@[simp] theorem clearErr_lfunc (s : State) : (clearErr s).lfunc = s.lfunc := rfl
@[simp] theorem clearErr_rem (s : State) : (clearErr s).rem = s.rem := rfl
@[simp] theorem clearErr_func (s : State) : (clearErr s).func = s.func := rfl
@[simp] theorem clearErr_outlen (s : State) : (clearErr s).outlen = s.outlen := rfl
@[simp] theorem clearErr_events (s : State) : (clearErr s).events = s.events := rfl
@[simp] theorem clearErr_reads (s : State) : (clearErr s).reads = s.reads := rfl

@[simp] theorem abandon_lanes (s : State) : (abandon s).lanes = s.lanes := rfl
@[simp] theorem abandon_busy (s : State) : (abandon s).busy = s.busy := rfl
@[simp] theorem abandon_phase (s : State) : (abandon s).phase = .idle := rfl
@[simp] theorem abandon_rnd (s : State) : (abandon s).rnd = s.rnd := rfl
@[simp] theorem abandon_err (s : State) : (abandon s).err = s.err := rfl
@[simp] theorem abandon_lptr (s : State) : (abandon s).lptr = 0 := rfl
@[simp] theorem abandon_optr (s : State) : (abandon s).optr = 0 := rfl
@[simp] theorem abandon_lfunc (s : State) : (abandon s).lfunc = s.lfunc := rfl
@[simp] theorem abandon_rem (s : State) : (abandon s).rem = 0 := rfl
@[simp] theorem abandon_func (s : State) : (abandon s).func = s.func := rfl
@[simp] theorem abandon_outlen (s : State) : (abandon s).outlen = s.outlen := rfl
@[simp] theorem abandon_events (s : State) : (abandon s).events = s.events := rfl
@[simp] theorem abandon_reads (s : State) : (abandon s).reads = s.reads := rfl

@[simp] theorem beginHash_lanes (s : State) : (beginHash s).lanes = Vector.replicate 25 0 := rfl
@[simp] theorem beginHash_busy (s : State) : (beginHash s).busy = s.busy := rfl
@[simp] theorem beginHash_phase (s : State) : (beginHash s).phase = .absorb := rfl
@[simp] theorem beginHash_rnd (s : State) : (beginHash s).rnd = s.rnd := rfl
@[simp] theorem beginHash_err (s : State) : (beginHash s).err = s.err := rfl
@[simp] theorem beginHash_lptr (s : State) : (beginHash s).lptr = 0 := rfl
@[simp] theorem beginHash_optr (s : State) : (beginHash s).optr = 0 := rfl
@[simp] theorem beginHash_lfunc (s : State) : (beginHash s).lfunc = s.func := rfl
@[simp] theorem beginHash_rem (s : State) : (beginHash s).rem = if s.func.toNat < 4 then fixedOutlen s.func else s.outlen := rfl
@[simp] theorem beginHash_func (s : State) : (beginHash s).func = s.func := rfl
@[simp] theorem beginHash_outlen (s : State) : (beginHash s).outlen = s.outlen := rfl
@[simp] theorem beginHash_events (s : State) : (beginHash s).events = s.events := rfl
@[simp] theorem beginHash_reads (s : State) : (beginHash s).reads = s.reads := rfl

@[simp] theorem recordErr_lanes (c : ErrCode) (s : State) : (recordErr c s).lanes = s.lanes := by
  unfold recordErr; split <;> rfl
@[simp] theorem recordErr_busy (c : ErrCode) (s : State) : (recordErr c s).busy = s.busy := by
  unfold recordErr; split <;> rfl
@[simp] theorem recordErr_phase (c : ErrCode) (s : State) : (recordErr c s).phase = s.phase := by
  unfold recordErr; split <;> rfl
@[simp] theorem recordErr_rnd (c : ErrCode) (s : State) : (recordErr c s).rnd = s.rnd := by
  unfold recordErr; split <;> rfl
@[simp] theorem recordErr_err (c : ErrCode) (s : State) : (recordErr c s).err = if s.err = 0 then c.code else s.err := by
  unfold recordErr; split <;> rfl
@[simp] theorem recordErr_lptr (c : ErrCode) (s : State) : (recordErr c s).lptr = s.lptr := by
  unfold recordErr; split <;> rfl
@[simp] theorem recordErr_optr (c : ErrCode) (s : State) : (recordErr c s).optr = s.optr := by
  unfold recordErr; split <;> rfl
@[simp] theorem recordErr_lfunc (c : ErrCode) (s : State) : (recordErr c s).lfunc = s.lfunc := by
  unfold recordErr; split <;> rfl
@[simp] theorem recordErr_rem (c : ErrCode) (s : State) : (recordErr c s).rem = s.rem := by
  unfold recordErr; split <;> rfl
@[simp] theorem recordErr_func (c : ErrCode) (s : State) : (recordErr c s).func = s.func := by
  unfold recordErr; split <;> rfl
@[simp] theorem recordErr_outlen (c : ErrCode) (s : State) : (recordErr c s).outlen = s.outlen := by
  unfold recordErr; split <;> rfl
@[simp] theorem recordErr_events (c : ErrCode) (s : State) : (recordErr c s).events = s.events := by
  unfold recordErr; split <;> rfl
@[simp] theorem recordErr_reads (c : ErrCode) (s : State) : (recordErr c s).reads = s.reads := by
  unfold recordErr; split <;> rfl

end Sys2Proof.Machine
end

