-- ==== Sys2Proof/Laws/Exec.lean ====
section
/-! SUPPORT. What one transition can do, said once: an instruction waits (and the engine steps), or completes with its effect. -/

namespace Sys2Proof.Machine

@[simp] theorem stalling_busy (s : State) (act : State → State) (h : s.busy = true) : stalling s act = .next (engineStep s) := by
  simp only [stalling, h, if_true]

@[simp] theorem stalling_ready (s : State) (act : State → State) (h : s.busy = false) :
    stalling s act = .next (retire (act s)) := by
  simp only [stalling, h, Bool.false_eq_true, if_false]

@[simp] theorem atOnce_eq (s : State) (act : State → State) : atOnce s act = .next (retire (act s)) := rfl

/-- The effect of a command on the block when it completes. A bus access is no command (its value here is never used). -/
def commandEffect : Instr → State → State
  | .nop => id
  | .init => initHash
  | .final nb tail => finalPad nb tail
  | .permute => startPerm
  | .round ir => withRoundIndex ir (mapLanes fun L => keccakRound L ir)
  | .theta => mapLanes theta
  | .rho => mapLanes rho
  | .pi => mapLanes pi
  | .chi => mapLanes chi
  | .iota ir => withRoundIndex ir (mapLanes fun L => iota L ir)
  | .clrerr => clearErr
  | .sreset => blockReset
  | .rdId | .wrCmd _ | .rdStatus | .rdMode | .wrMode _ | .rdOutlen | .wrOutlen _ | .wrDin _ | .rdDout | .rdRemain => recordErr .cmd
  | .rdLane _ | .wrLane _ _ => recordErr .cmd

/-- The effect of any instruction on the block when it completes. -/
def instrEffect : Instr → State → State
  | .rdId => respond idWord
  | .wrCmd v =>
    match decodeCommand v with
    | .ok i => commandEffect i
    | .error e => recordErr (rejectCode e)
  | .rdStatus => fun s => respond (statusWord s) s
  | .rdMode => fun s => respond (modeWord s) s
  | .wrMode v => fun s => { s with func := v.extractLsb' 0 3 }
  | .rdOutlen => fun s => respond s.outlen s
  | .wrOutlen v => fun s => { s with outlen := v }
  | .wrDin v => dinWrite v
  | .rdDout => doutRead
  | .rdRemain => fun s => respond s.rem s
  | .rdLane i =>
    if laneExists i then fun s => respond (getLane s.lanes i) s
    else fun s => respond 0 (recordErr .addr s)
  | .wrLane i v =>
    if laneExists i then fun s => { s with lanes := setLane s.lanes i v }
    else recordErr .addr
  | .nop => commandEffect .nop
  | .init => commandEffect .init
  | .final nb tail => commandEffect (.final nb tail)
  | .permute => commandEffect .permute
  | .round ir => commandEffect (.round ir)
  | .theta => commandEffect .theta
  | .rho => commandEffect .rho
  | .pi => commandEffect .pi
  | .chi => commandEffect .chi
  | .iota ir => commandEffect (.iota ir)
  | .clrerr => commandEffect .clrerr
  | .sreset => commandEffect .sreset

/-- Which instructions wait while BUSY = 1: those that stall, but for a LANE access at a reserved offset (R56, R57). -/
def waits : Instr → Bool
  | .rdLane i => laneExists i
  | .wrLane i _ => laneExists i
  | .nop => true
  | .init => true
  | .final _ _ => true
  | .permute => true
  | .round _ => true
  | .theta => true
  | .rho => true
  | .pi => true
  | .chi => true
  | .iota _ => true
  | .clrerr => true
  | .sreset => true
  | .wrCmd _ => true
  | .wrDin _ => true
  | .rdDout => true
  | .rdId => false
  | .rdStatus => false
  | .rdMode => false
  | .wrMode _ => false
  | .rdOutlen => false
  | .wrOutlen _ => false
  | .rdRemain => false

theorem waits_of_wf (i : Instr) (h : i.wf = true) : waits i = i.stalls := by
  cases i <;> first | rfl | simpa [waits, laneExists, Instr.wf, Instr.stalls] using h

/-- A command performed is one that stalls, with its effect. -/
theorem performCommand_eq (i : Instr) (s : State) : performCommand i s = stalling s (commandEffect i) := by
  cases i <;> rfl

/-- One transition of any instruction in any state: wait, or complete. -/
theorem exec_eq (i : Instr) (s : State) :
    exec i s = if waits i && s.busy then .next (engineStep s) else .next (retire (instrEffect i s)) := by
  cases i with
  | wrCmd v =>
    simp only [exec, execWrCmd, waits, Bool.true_and, instrEffect]
    cases decodeCommand v <;> simp only [performCommand_eq, stalling]
  | rdLane i =>
    simp only [exec, execRdLane, waits, instrEffect]
    by_cases hi : laneExists i = true <;>
      simp [hi, stalling, refuseAccess, readOf, refusedData, rejectCode]
  | wrLane i v =>
    simp only [exec, execWrLane, waits, instrEffect]
    by_cases hi : laneExists i = true <;>
      simp [hi, stalling, refuseAccess, writeOf, refusedData, rejectCode]
  | _ => rfl

/-! No effect touches the host's list: the access leaves it when it completes, and not before (R67). -/

@[simp] theorem initHash_events (s : State) : (initHash s).events = s.events := by
  simp only [initHash]; split <;> simp

@[simp] theorem finalPad_events (nb : BitVec 3) (tail : BitVec 56) (s : State) : (finalPad nb tail s).events = s.events := by
  simp only [finalPad]; split <;> simp [padBlock]

@[simp] theorem dinWrite_events (v : Word) (s : State) : (dinWrite v s).events = s.events := by
  simp only [dinWrite, absorbWord]; split <;> (try split) <;> simp

@[simp] theorem doutRead_events (s : State) : (doutRead s).events = s.events := by
  simp only [doutRead, consumeWord]; split <;> (try split) <;> (try split) <;> simp

@[simp] theorem withRoundIndex_events (ir : BitVec 5) (f : Lanes → Lanes) (s : State) :
    (withRoundIndex ir (mapLanes f) s).events = s.events := by
  simp only [withRoundIndex]; split <;> simp

@[simp] theorem commandEffect_events (i : Instr) (s : State) : (commandEffect i s).events = s.events := by
  cases i <;> simp [commandEffect]

@[simp] theorem instrEffect_events (i : Instr) (s : State) : (instrEffect i s).events = s.events := by
  cases i with
  | wrCmd v => simp only [instrEffect]; cases decodeCommand v <;> simp
  | rdLane i => by_cases h : laneExists i = true <;> simp [instrEffect, h]
  | wrLane i v => by_cases h : laneExists i = true <;> simp [instrEffect, h]
  | _ => simp [instrEffect]

/-- An instruction that does not stall completes in every state. -/
theorem exec_unstalled (i : Instr) (s : State) (h : i.stalls = false) : exec i s = .next (retire (instrEffect i s)) := by
  have hw : waits i = false := by cases i <;> simp_all [Instr.stalls, waits]
  rw [exec_eq, hw]
  rfl

theorem step_nil (s : State) (h : s.events = []) : step s = .next (engineTurn s) := by
  simp only [step, h, idleTurn]

theorem step_engine (s : State) (rest : List Event) (h : s.events = .engine :: rest) :
    step s = .next (retire (engineTurn s)) := by
  simp only [step, h, engineEvent]

theorem step_reset (s : State) (rest : List Event) (h : s.events = .reset :: rest) :
    step s = .next (retire (blockReset s)) := by
  simp only [step, h, resetEvent]

theorem step_resetDuring (s : State) (r : Request) (rest : List Event) (h : s.events = .resetDuring r :: rest) :
    step s = .refused .resetDuringAccess := by
  simp only [step, h, resetDuringAccess]

theorem step_refused_access (s : State) (r : Request) (rest : List Event) (e : Reject) (h : s.events = .access r :: rest)
    (hd : decodeAccess r = .error e) : step s = .next (retire (refusedData r (recordErr (rejectCode e) s))) := by
  simp only [step, h, hd, refuseAccess, atOnce]

/-- What a step that answers a next state did: it took the engine's turn, a reset, a refused access, or one instruction. -/
theorem step_cases (s t : State) (h : step s = .next t) :
    (s.events = [] ∧ t = engineTurn s) ∨
    (∃ rest, s.events = .engine :: rest ∧ t = retire (engineTurn s)) ∨
    (∃ rest, s.events = .reset :: rest ∧ t = retire (blockReset s)) ∨
    (∃ r rest e, s.events = .access r :: rest ∧ decodeAccess r = .error e ∧
      t = retire (refusedData r (recordErr (rejectCode e) s))) ∨
    (∃ r rest i, s.events = .access r :: rest ∧ decodeAccess r = .ok i ∧ waits i = true ∧ s.busy = true ∧ t = engineStep s) ∨
    (∃ r rest i, s.events = .access r :: rest ∧ decodeAccess r = .ok i ∧ (waits i = true → s.busy = false) ∧
      t = retire (instrEffect i s)) := by
  match hev : s.events with
  | [] =>
    rw [step_nil s hev] at h
    exact .inl ⟨rfl, (Host.Outcome.next.inj h).symm⟩
  | .engine :: rest =>
    rw [step_engine s rest hev] at h
    exact .inr (.inl ⟨rest, rfl, (Host.Outcome.next.inj h).symm⟩)
  | .reset :: rest =>
    rw [step_reset s rest hev] at h
    exact .inr (.inr (.inl ⟨rest, rfl, (Host.Outcome.next.inj h).symm⟩))
  | .resetDuring r :: rest =>
    rw [step_resetDuring s r rest hev] at h
    cases h
  | .access r :: rest =>
    match hd : decodeAccess r with
    | .error e =>
      rw [step_refused_access s r rest e hev hd] at h
      exact .inr (.inr (.inr (.inl ⟨r, rest, e, rfl, hd, (Host.Outcome.next.inj h).symm⟩)))
    | .ok i =>
      have hs : step s = exec i s := by simp only [step, hev, hd]
      rw [hs, exec_eq] at h
      split at h
      · rename_i hw
        simp only [Bool.and_eq_true] at hw
        exact .inr (.inr (.inr (.inr (.inl ⟨r, rest, i, rfl, hd, hw.1, hw.2, (Host.Outcome.next.inj h).symm⟩))))
      · rename_i hw
        refine .inr (.inr (.inr (.inr (.inr ⟨r, rest, i, rfl, hd, ?_, (Host.Outcome.next.inj h).symm⟩))))
        intro hi
        cases hb : s.busy
        · rfl
        · simp [hi, hb] at hw

end Sys2Proof.Machine
end

