-- ==== Sys2Proof/Laws/Lanes.lean ====
section
/-! SUPPORT. Reading back a state built lane by lane, and one lane after a write of another. -/

namespace Sys2Proof.Machine

theorem lane_eq_getElem (L : Lanes) (x y : Nat) (hx : x < 5) (hy : y < 5) : lane L x y = L[x + 5 * y]'(by omega) := by
  simp only [lane, Nat.mod_eq_of_lt hx, Nat.mod_eq_of_lt hy]

/-- The coordinates are taken mod 5 (R11). -/
@[simp] theorem lane_mod (L : Lanes) (x y : Nat) : lane L (x % 5) (y % 5) = lane L x y := by
  simp only [lane, Nat.mod_mod]

@[simp] theorem ofLanes_getElem (f : Nat → Nat → Word) (i : Nat) (h : i < 25) : (ofLanes f)[i] = f (i % 5) (i / 5) := by
  simp only [ofLanes, Vector.getElem_ofFn]

@[simp] theorem lane_ofLanes (f : Nat → Nat → Word) (x y : Nat) : lane (ofLanes f) x y = f (x % 5) (y % 5) := by
  have h1 : (x % 5 + 5 * (y % 5)) % 5 = x % 5 := by omega
  have h2 : (x % 5 + 5 * (y % 5)) / 5 = y % 5 := by omega
  simp only [lane, ofLanes_getElem, h1, h2]

/-- Two states with the same 25 lanes are the same state (R13, R30). -/
theorem lanes_ext (L M : Lanes) (h : ∀ x y, x < 5 → y < 5 → lane L x y = lane M x y) : L = M := by
  apply Vector.ext
  intro i hi
  have := h (i % 5) (i / 5) (by omega) (by omega)
  simpa only [lane, Nat.mod_mod, Nat.mod_eq_of_lt (show i / 5 < 5 by omega), show i % 5 + 5 * (i / 5) = i by omega] using this

theorem getLane_of_lt (L : Lanes) (i : BitVec 5) (h : i.toNat < 25) : getLane L i = L[i.toNat] := dif_pos h

theorem setLane_of_lt (L : Lanes) (i : BitVec 5) (v : Word) (h : i.toNat < 25) : setLane L i v = L.set i.toNat v := dif_pos h

/-- A lane after a write: the written one holds the value, every other lane is unchanged. -/
theorem setLane_getElem (L : Lanes) (i : BitVec 5) (v : Word) (j : Nat) (hj : j < 25) :
    (setLane L i v)[j] = if i.toNat = j then v else L[j] := by
  unfold setLane
  split
  · simp only [Vector.getElem_set]
  · rw [if_neg (by omega)]

/-- A lane after an XOR into one lane. -/
theorem xorLane_getElem (L : Lanes) (i : BitVec 5) (v : Word) (j : Nat) (hj : j < 25) :
    (xorLane L i v)[j] = if i.toNat = j then L[j] ^^^ v else L[j] := by
  unfold xorLane
  rw [setLane_getElem]
  by_cases h : i.toNat = j
  · subst h
    simp only [if_true, getLane_of_lt L i hj]
  · simp only [if_neg h]

end Sys2Proof.Machine
end

