-- ==== Sys2Proof/Laws/Ops.lean ====
section
/-! SUPPORT. One lemma per shared operation that says everything it can do. -/

namespace Sys2Proof.Machine

/-- RecordErr keeps an error that stands recorded (R147). -/
theorem recordErr_kept (c : ErrCode) (s : State) (h : s.err ≠ 0) : recordErr c s = s := if_neg h

/-- RecordErr latches the first error (R147). -/
theorem recordErr_first (c : ErrCode) (s : State) (h : s.err = 0) : recordErr c s = { s with err := c.code } := if_pos h

/-- A code that is recorded is one of 1..6 (R146). -/
theorem errCode_range (c : ErrCode) : 1 ≤ c.code.toNat ∧ c.code.toNat ≤ 6 := by
  cases c <;> decide

/-- RL is the rate in lanes, for each of the six functions (R104). -/
theorem rateLanes_num (f : SpongeFn) : (rateLanes f.num).toNat = f.rate / 64 := by
  cases f <;> rfl

/-- The rate is a whole number of lanes (R104). -/
theorem rate_lanes (f : SpongeFn) : f.rate = 64 * (f.rate / 64) := by
  cases f <;> rfl

/-- FUNC numbers 0..5 are the six functions (R104). -/
theorem num_of_le (k : BitVec 3) (h : k.toNat ≤ 5) : ∃ f : SpongeFn, f.num = k := by
  revert k
  intro k
  match k with
  | 0#3 => exact fun _ => ⟨.sha3_224, rfl⟩
  | 1#3 => exact fun _ => ⟨.sha3_256, rfl⟩
  | 2#3 => exact fun _ => ⟨.sha3_384, rfl⟩
  | 3#3 => exact fun _ => ⟨.sha3_512, rfl⟩
  | 4#3 => exact fun _ => ⟨.shake128, rfl⟩
  | 5#3 => exact fun _ => ⟨.shake256, rfl⟩
  | 6#3 => exact fun h => absurd h (by decide)
  | 7#3 => exact fun h => absurd h (by decide)

/-- For functions 0..5, RL lies in 9..21 (R104), so every lane below it exists (R30). -/
theorem rateLanes_range (k : BitVec 3) (h : k.toNat ≤ 5) : 9 ≤ (rateLanes k).toNat ∧ (rateLanes k).toNat ≤ 21 := by
  obtain ⟨f, rfl⟩ := num_of_le k h
  cases f <;> decide

/-- INIT either is refused with E_MODE or E_LEN and abandons the sponge, or begins a hash (R108). -/
theorem initHash_cases (s : State) :
    (6 ≤ s.func.toNat ∧ initHash s = recordErr .mode (abandon (clearErr s))) ∨
    (s.func.toNat < 6 ∧ isXof s.func = true ∧ s.outlen = 0 ∧ initHash s = recordErr .len (abandon (clearErr s))) ∨
    (s.func.toNat < 6 ∧ (isXof s.func = true → s.outlen ≠ 0) ∧ initHash s = beginHash (clearErr s)) := by
  unfold initHash initRefusal
  by_cases h6 : 6 ≤ s.func.toNat
  · exact .inl ⟨h6, by rw [if_pos h6]⟩
  · by_cases hx : isXof s.func = true
    · by_cases ho : s.outlen = 0
      · exact .inr (.inl ⟨by omega, hx, ho, by rw [if_neg h6, hx, decide_eq_true ho]; rfl⟩)
      · exact .inr (.inr ⟨by omega, fun _ => ho, by rw [if_neg h6, hx, decide_eq_false ho]; rfl⟩)
    · exact .inr (.inr ⟨by omega, fun h => absurd h hx, by rw [if_neg h6, Bool.eq_false_iff.mpr hx]; rfl⟩)

/-- An absorbed word completes its block, and the permutation starts, or does not (R109). -/
theorem absorbWord_cases (v : Word) (s : State) :
    (s.lptr + 1 = rateLanes s.lfunc ∧
      absorbWord v s = { s with lanes := xorLane s.lanes s.lptr v, lptr := 0, busy := true, rnd := 0 }) ∨
    (s.lptr + 1 ≠ rateLanes s.lfunc ∧
      absorbWord v s = { s with lanes := xorLane s.lanes s.lptr v, lptr := s.lptr + 1 }) := by
  by_cases h : s.lptr + 1 = rateLanes s.lfunc
  · exact .inl ⟨h, by simp only [absorbWord, h, if_true, startPerm]⟩
  · exact .inr ⟨h, by simp only [absorbWord, if_neg h]⟩

/-- An accepted DOUT read ends the hash, refills an emptied block, or goes on in its block (R113). -/
theorem consumeWord_cases (s : State) :
    let left := s.rem - BitVec.ofNat 64 (outputBits s.rem)
    (left = 0 ∧ consumeWord s = { s with rem := 0, optr := s.optr + 1, phase := .done }) ∨
    (left ≠ 0 ∧ s.optr + 1 = rateLanes s.lfunc ∧
      consumeWord s = { s with rem := left, optr := 0, busy := true, rnd := 0 }) ∨
    (left ≠ 0 ∧ s.optr + 1 ≠ rateLanes s.lfunc ∧ consumeWord s = { s with rem := left, optr := s.optr + 1 }) := by
  intro left
  by_cases hl : left = 0
  · exact .inl ⟨hl, by simp only [consumeWord, show s.rem - BitVec.ofNat 64 (outputBits s.rem) = 0 from hl, if_true]⟩
  · by_cases ho : s.optr + 1 = rateLanes s.lfunc
    · exact .inr (.inl ⟨hl, ho, by
        simp only [consumeWord, if_neg (show ¬ s.rem - BitVec.ofNat 64 (outputBits s.rem) = 0 from hl), ho, if_true, startPerm]
        rfl⟩)
    · exact .inr (.inr ⟨hl, ho, by
        simp only [consumeWord, if_neg (show ¬ s.rem - BitVec.ofNat 64 (outputBits s.rem) = 0 from hl), if_neg ho]
        rfl⟩)

end Sys2Proof.Machine
end

