-- ==== Sys2Proof/Laws/PerInstr.lean ====
section
/-! SUPPORT. The family EncodingSpace: an instruction is encoded in the space its opcode-table row names, a command as a command
word and a bus access as a transaction. -/

namespace Sys2Proof.Laws.EncodingSpace

/-- A command's code is a command word and a bus access's code is a transaction (the rows' "space"). -/
def Statement (i : Instr) : Prop :=
  if i.isCommand then ∃ v, encode i = .command v else ∃ r, encode i = .access r

theorem nop : Statement .nop := ⟨_, rfl⟩
theorem init : Statement .init := ⟨_, rfl⟩
theorem final (nb : BitVec 3) (tail : BitVec 56) : Statement (.final nb tail) := ⟨_, rfl⟩
theorem permute : Statement .permute := ⟨_, rfl⟩
theorem round (ir : BitVec 5) : Statement (.round ir) := ⟨_, rfl⟩
theorem theta : Statement .theta := ⟨_, rfl⟩
theorem rho : Statement .rho := ⟨_, rfl⟩
theorem pi : Statement .pi := ⟨_, rfl⟩
theorem chi : Statement .chi := ⟨_, rfl⟩
theorem iota (ir : BitVec 5) : Statement (.iota ir) := ⟨_, rfl⟩
theorem clrerr : Statement .clrerr := ⟨_, rfl⟩
theorem sreset : Statement .sreset := ⟨_, rfl⟩
theorem rdId : Statement .rdId := ⟨_, rfl⟩
theorem wrCmd (v : Word) : Statement (.wrCmd v) := ⟨_, rfl⟩
theorem rdStatus : Statement .rdStatus := ⟨_, rfl⟩
theorem rdMode : Statement .rdMode := ⟨_, rfl⟩
theorem wrMode (v : Word) : Statement (.wrMode v) := ⟨_, rfl⟩
theorem rdOutlen : Statement .rdOutlen := ⟨_, rfl⟩
theorem wrOutlen (v : Word) : Statement (.wrOutlen v) := ⟨_, rfl⟩
theorem wrDin (v : Word) : Statement (.wrDin v) := ⟨_, rfl⟩
theorem rdDout : Statement .rdDout := ⟨_, rfl⟩
theorem rdRemain : Statement .rdRemain := ⟨_, rfl⟩
theorem rdLane (i : BitVec 5) : Statement (.rdLane i) := ⟨_, rfl⟩
theorem wrLane (i : BitVec 5) (v : Word) : Statement (.wrLane i v) := ⟨_, rfl⟩

end Sys2Proof.Laws.EncodingSpace
end

