-- ==== Sys2Proof/Laws/Run.lean ====
section
/-! SUPPORT. Runs of several steps: one step and then the rest, and two runs end to end. -/

namespace Sys2Proof.Machine

theorem run_zero (s : State) : Host.Core.run Sys2Proof.core 0 s = .next s := rfl

/-- A run of one step more, where the first step has a next state. -/
theorem run_succ (k : Nat) (s t : State) (h : step s = .next t) :
    Host.Core.run Sys2Proof.core (k + 1) s = Host.Core.run Sys2Proof.core k t := by
  have h' : Sys2Proof.core.step s = .next t := h
  simp only [Host.Core.run, h']

/-- Two runs end to end. -/
theorem run_add (j k : Nat) (s t : State) (h : Host.Core.run Sys2Proof.core j s = .next t) :
    Host.Core.run Sys2Proof.core (j + k) s = Host.Core.run Sys2Proof.core k t := by
  induction j generalizing s with
  | zero =>
    rw [run_zero] at h
    rw [Nat.zero_add, Host.Outcome.next.inj h]
  | succ j ih =>
    rw [show j + 1 + k = (j + k) + 1 by omega]
    cases hs : step s with
    | next u =>
      rw [run_succ j s u hs] at h
      rw [run_succ (j + k) s u hs]
      exact ih u h
    | fault r => cases r
    | refused r =>
      have hr : Host.Core.run Sys2Proof.core (j + 1) s = .refused r := by
        have h' : Sys2Proof.core.step s = .refused r := hs
        simp only [Host.Core.run, h']
      rw [hr] at h
      cases h

/-- While an access is held, the step is an engine step. -/
theorem step_busy_held (s : State) (r : Request) (rest : List Event) (i : Instr) (h : s.events = .access r :: rest)
    (hd : decodeAccess r = .ok i) (hw : waits i = true) (hb : s.busy = true) : step s = .next (engineStep s) := by
  have hs : step s = exec i s := by simp only [step, h, hd]
  rw [hs, exec_eq, hw, hb]
  rfl

/-- An engine turn leaves the host's list and the data read. -/
@[simp] theorem engineTurn_events (s : State) : (engineTurn s).events = s.events := by
  simp only [engineTurn]; split <;> simp

@[simp] theorem engineTurn_reads (s : State) : (engineTurn s).reads = s.reads := by
  simp only [engineTurn]; split <;> simp

/-- An engine turn takes no account of the host's list. -/
theorem engineTurn_withEvents (s : State) (es : List Event) :
    engineTurn { s with events := es } = { engineTurn s with events := es } := by
  by_cases h : s.busy = true <;> simp [engineTurn, h, engineStep]

/-- Several engine turns at the head of the list. -/
theorem run_engineTurns (g : Nat) (s : State) (rest : List Event) :
    Host.Core.run Sys2Proof.core g { s with events := List.replicate g .engine ++ rest } =
      .next { Nat.iterate engineTurn g s with events := rest } := by
  induction g generalizing s with
  | zero => rfl
  | succ g ih =>
    rw [run_succ g _ _ (step_engine _ _ rfl), engineTurn_withEvents]
    exact ih (engineTurn s)

/-- One turn of `poll`: the engine's turns, and then STATUS is read. -/
theorem pollTurn_eq (g : Nat) (s : State) :
    pollTurn g s = .next (respond (statusWord (Nat.iterate engineTurn g s)) { Nat.iterate engineTurn g s with events := s.events }) := by
  have h := run_engineTurns g s (rdReg .status :: s.events)
  have hl : pollTurns [g] ++ s.events = List.replicate g .engine ++ rdReg .status :: s.events := by simp [pollTurns]
  rw [pollTurn, hl, run_add g 1 _ _ h]
  rfl

end Sys2Proof.Machine
end

