-- ==== Sys2Proof/Tests/Slice0.lean ====
section
/-! SUPPORT. The model's own tests: each check of WellFormed on a term it refuses, every constructor's decoding from a word written
out from R73, R74 and R77, one step of an instruction on a small state with the result of a vector of spec/95_test_vectors.md (named
in each comment), and a witness for the hypotheses of each statement that has some. -/

namespace Sys2Proof.Tests

open Sys2Proof Sys2Proof.Machine

-- One theorem at a time: the kernel checks of many small theorems side by side hold one stack each, which fills the memory.
set_option Elab.async false

/-- The reset state with some lanes set. -/
def withLanes (ls : List (Nat × Word)) : State :=
  { State.reset with lanes := ls.foldl (fun L p => L.setIfInBounds p.1 p.2) State.reset.lanes }

/-- The outcome is a next state with the property. -/
def nextIs (o : Result) (p : State → Bool) : Bool :=
  match o with
  | .next t => p t
  | .fault _ => false
  | .refused _ => false

/-- The lanes are the ones listed, all others 0. -/
def lanesAre (ls : List (Nat × Word)) (s : State) : Bool := decide (s.lanes = (withLanes ls).lanes)

/-! ### WellFormed refuses -/

theorem test_wf_round_24 : (Instr.round 24).wf = false := by decide
theorem test_wf_iota_31 : (Instr.iota 31).wf = false := by decide
theorem test_wf_rdLane_25 : (Instr.rdLane 25).wf = false := by decide
theorem test_wf_wrLane_31 : (Instr.wrLane 31 0).wf = false := by decide
theorem test_wf_bounds : (Instr.round 23).wf && (Instr.iota 0).wf && (Instr.rdLane 24).wf && (Instr.wrLane 24 7).wf = true := by decide

/-! ### Decoding, every constructor (R77, R73) -/

theorem test_decode_nop : decode (.command 0x0000000000000000) = .ok .nop := by decide
theorem test_decode_init : decode (.command 0x0000000000000001) = .ok .init := by decide
-- The word of "abc", R78.
theorem test_decode_final : decode (.command 0x0000000063626162) = .ok (.final 3 0x636261) := by decide
-- D10: every bit above OP is NB or TAIL.
theorem test_decode_final_all_tail : decode (.command 0xFFFFFFFFFFFFFF22) = .ok (.final 1 0xFFFFFFFFFFFFFF) := by decide
theorem test_decode_permute : decode (.command 0x0000000000000003) = .ok .permute := by decide
-- 0x04 | 23<<8 (R2).
theorem test_decode_round : decode (.command 0x0000000000001704) = .ok (.round 23) := by decide
theorem test_decode_theta : decode (.command 0x0000000000000005) = .ok .theta := by decide
theorem test_decode_rho : decode (.command 0x0000000000000006) = .ok .rho := by decide
theorem test_decode_pi : decode (.command 0x0000000000000007) = .ok .pi := by decide
theorem test_decode_chi : decode (.command 0x0000000000000008) = .ok .chi := by decide
-- 0x09 | 5<<8 (I3).
theorem test_decode_iota : decode (.command 0x0000000000000509) = .ok (.iota 5) := by decide
theorem test_decode_clrerr : decode (.command 0x000000000000000A) = .ok .clrerr := by decide
theorem test_decode_sreset : decode (.command 0x000000000000000B) = .ok .sreset := by decide
theorem test_decode_rdId : decode (.access (.read 0x000 0xFF)) = .ok .rdId := by decide
theorem test_decode_wrCmd : decode (.access (.write 0x008 0xFF 0xC)) = .ok (.wrCmd 0xC) := by decide
theorem test_decode_rdStatus : decode (.access (.read 0x010 0xFF)) = .ok .rdStatus := by decide
theorem test_decode_rdMode : decode (.access (.read 0x018 0xFF)) = .ok .rdMode := by decide
theorem test_decode_wrMode : decode (.access (.write 0x018 0xFF 4)) = .ok (.wrMode 4) := by decide
theorem test_decode_rdOutlen : decode (.access (.read 0x020 0xFF)) = .ok .rdOutlen := by decide
theorem test_decode_wrOutlen : decode (.access (.write 0x020 0xFF 0x578)) = .ok (.wrOutlen 0x578) := by decide
theorem test_decode_wrDin : decode (.access (.write 0x028 0xFF 0x0706050403020100)) = .ok (.wrDin 0x0706050403020100) := by decide
theorem test_decode_rdDout : decode (.access (.read 0x030 0xFF)) = .ok .rdDout := by decide
theorem test_decode_rdRemain : decode (.access (.read 0x038 0xFF)) = .ok .rdRemain := by decide
theorem test_decode_rdLane : decode (.access (.read 0x1C0 0xFF)) = .ok (.rdLane 24) := by decide
-- Key 0x318 is LANE[3] (Q5).
theorem test_decode_wrLane : decode (.access (.write 0x118 0xFF 0x0303030303030303)) = .ok (.wrLane 3 0x0303030303030303) := by decide

-- I5, I7, I8, E1, E2: the checks and their order (R76, R148).
theorem test_reject_words :
    decode (.command 0x1809) = .error .roundIndex ∧ decode (.command 0x1829) = .error .reservedBits ∧
    decode (.command 0x10009) = .error .reservedBits ∧ decode (.command 0xC) = .error .reservedOpcode ∧
    decode (.command 0x25) = .error .reservedBits := by decide
-- B6, B8, B10, B11, B12: the refused accesses.
theorem test_reject_accesses :
    decode (.access (.read 0x1C8 0xFF)) = .error .reservedOffset ∧ decode (.access (.read 0x012 0xFF)) = .error .misaligned ∧
    decode (.access (.write 0x028 0x0F 1)) = .error .misaligned ∧ decode (.access (.read 0x008 0xFF)) = .error .wrongDirection ∧
    decode (.access (.write 0x010 0xFF 0)) = .error .wrongDirection := by decide

-- The opcode table's numbers (log entry 5): a command word, a 16-bit key, a key with its data.
theorem test_table_words :
    decodeTableWord 64 0x8 = some .chi ∧ decodeTableWord 8 0x2 = some (.final 0 0) ∧ decodeTableWord 16 0x208 = some (.wrCmd 0) ∧
    decodeTableWord 16 0x100 = some (.rdLane 0) ∧ decodeTableWord 80 0x70218 = some (.wrMode 7) := by decide
theorem test_fetchWord_runs :
    nextIs (step (State.reset.withFetchWord 64 0x1704)) (fun t => lanesAre [(0, 0x8000000080008008)] t && decide (t.events = [])) = true := by
  decide +kernel

/-! ### One step of each instruction -/

-- T2: the mod-64 wrap.
theorem test_theta : nextIs (exec .theta (withLanes [(0, 0x8000000000000000)]))
    (lanesAre [(0, 0x8000000000000000), (1, 0x8000000000000000), (6, 0x8000000000000000), (11, 0x8000000000000000),
      (16, 0x8000000000000000), (21, 0x8000000000000000), (4, 1), (9, 1), (14, 1), (19, 1), (24, 1)]) = true := by decide +kernel
-- H4, H5.
theorem test_rho : nextIs (exec .rho (withLanes [(2, 0xF), (24, 0x8000000000000000)]))
    (lanesAre [(2, 0xC000000000000003), (24, 0x2000)]) = true := by decide +kernel
-- P3.
theorem test_pi : nextIs (exec .pi (withLanes [(1, 0xAAAA)])) (lanesAre [(10, 0xAAAA)]) = true := by decide +kernel
-- X1.
theorem test_chi : nextIs (exec .chi (withLanes [(0, 0xFFFF0000FFFF0000), (1, 0xFF00FF00FF00FF00), (2, 0xF0F0F0F0F0F0F0F0),
      (3, 0xCCCCCCCCCCCCCCCC), (4, 0xAAAAAAAAAAAAAAAA)]))
    (lanesAre [(0, 0xFF0F00F0FF0F00F0), (1, 0xF30CF30CF30CF30C), (2, 0xD2D2D2D2D2D2D2D2), (3, 0x9999CCCC9999CCCC),
      (4, 0xAAAA55AAAAAA55AA)]) = true := by decide +kernel
-- I4, I5.
theorem test_iota : nextIs (exec (.iota 2) (withLanes [(0, 0xFFFFFFFFFFFFFFFF)])) (lanesAre [(0, 0x7FFFFFFFFFFF7F75)]) = true := by
  decide +kernel
theorem test_iota_24 : nextIs (exec (.iota 24) State.reset) (fun t => decide (t.err = 3) && lanesAre [] t) = true := by decide +kernel
-- R4.
theorem test_round : nextIs (exec (.round 0) (withLanes [(0, 1)]))
    (lanesAre [(1, 0x100000000000), (2, 0x8000), (3, 1), (4, 0x100000008000), (6, 0x200000200000), (8, 0x200000000000),
      (9, 0x200000), (10, 2), (11, 0x200), (13, 0x202), (15, 0x10000400), (17, 0x400), (18, 0x10000000), (20, 0x10000000000),
      (22, 0x10000000004), (24, 4)]) = true := by decide +kernel
-- F1's start: STATUS right after `permute` from reset.
theorem test_permute : nextIs (exec .permute State.reset) (fun t => decide (statusWord t = 0x48000001)) = true := by decide +kernel
-- N2.
theorem test_init : nextIs (exec .init { State.reset with func := 5, outlen := 1089, err := 4 })
    (fun t => decide (statusWord t = 0x46800002) && decide (t.rem = 1089)) = true := by decide +kernel
-- N9.
theorem test_init_refused : nextIs (exec .init { State.reset with func := 7, phase := .squeeze, optr := 1, rem := 192, lfunc := 1 })
    (fun t => decide (statusWord t = 0x44800050) && decide (t.rem = 0)) = true := by decide +kernel

/-- A hash in ABSORB with the given function and lane pointer. -/
def absorbing (f : BitVec 3) (p : BitVec 5) : State := { State.reset with phase := .absorb, lfunc := f, lptr := p, rem := 256 }

/-- A hash in SQUEEZE. -/
def squeezing (f : BitVec 3) (p : BitVec 5) (r : Word) : State := { State.reset with phase := .squeeze, lfunc := f, optr := p, rem := r }

/-- A permutation in progress. -/
def running (r : BitVec 5) : State := { State.reset with busy := true, rnd := r }

-- D3: the largest tail in the last rate lane.
theorem test_final : nextIs (exec (.final 7 0x86858483828180) (absorbing 1 16))
    (fun t => lanesAre [(16, 0x8686858483828180)] t && decide (statusWord t = 0x44800005)) = true := by decide +kernel
-- D10: tail bytes at positions >= nb are ignored.
theorem test_final_ignores : nextIs (exec (.final 1 0xFFFFFFFFFFFFFF) (absorbing 2 0))
    (lanesAre [(0, 0x6FF), (12, 0x8000000000000000)]) = true := by decide +kernel
-- N7.
theorem test_wrDin : nextIs (exec (.wrDin 5) (absorbing 4 20))
    (fun t => decide (statusWord t = 0x56000003) && lanesAre [(20, 5)] t) = true := by decide +kernel
-- N8.
theorem test_wrDin_idle : nextIs (exec (.wrDin 5) State.reset) (fun t => decide (statusWord t = 0x48000040) && lanesAre [] t) = true := by
  decide +kernel
-- Q2: the fourth word of SHA3-224 keeps 32 bits.
theorem test_rdDout : nextIs (exec .rdDout { squeezing 0 3 32 with lanes := (withLanes [(3, 0x64BC8CB8DF6FB473)]).lanes })
    (fun t => decide (t.reads = [0xDF6FB473]) && decide (statusWord t = 0x48100006)) = true := by decide +kernel
-- S5: read 16 empties the block with one bit due.
theorem test_rdDout_refill : nextIs (exec .rdDout (squeezing 5 16 65)) (fun t => decide (statusWord t = 0x46800005) && decide (t.rem = 1)) = true := by
  decide +kernel
theorem test_nop : exec .nop (absorbing 1 3) = .next (absorbing 1 3) := rfl
-- E5.
theorem test_clrerr : nextIs (exec .clrerr { absorbing 1 3 with err := 4 }) (fun t => decide (t = absorbing 1 3)) = true := by decide +kernel
-- E7.
theorem test_sreset : nextIs (exec .sreset { withLanes [(24, 9)] with func := 7, outlen := 3, err := 1, optr := 2 })
    (fun t => decide (t = State.reset)) = true := by decide +kernel
-- E6: a malformed CLRERR clears nothing.
theorem test_wrCmd_malformed : nextIs (exec (.wrCmd 0x2A) { State.reset with err := 4 }) (fun t => decide (t.err = 4)) = true := by
  decide +kernel
theorem test_wrCmd_iota : nextIs (exec (.wrCmd 0x1709) State.reset) (lanesAre [(0, 0x8000000080008008)]) = true := by decide +kernel
-- B1.
theorem test_rdId : nextIs (exec .rdId (running 3)) (fun t => decide (t.reads = [0x4B45434306400001]) && t.busy) = true := by decide +kernel
-- B13.
theorem test_rdStatus : nextIs (exec .rdStatus (running 5)) (fun t => decide (t.reads = [0x48000501])) = true := by decide +kernel
-- B3.
theorem test_wrMode : nextIs (exec (.wrMode 0xFFFFFFFFFFFFFFFD) State.reset) (fun t => decide (t.func = 5) && decide (t.lfunc = 0)) = true := by
  decide +kernel
theorem test_rdMode : nextIs (exec .rdMode { State.reset with func := 5 }) (fun t => decide (t.reads = [5])) = true := by decide +kernel
-- B4.
theorem test_wrOutlen : nextIs (exec (.wrOutlen 0x123456789) State.reset) (fun t => decide (t.outlen = 0x123456789)) = true := by
  decide +kernel
theorem test_rdOutlen : nextIs (exec .rdOutlen { State.reset with outlen := 0x123456789 }) (fun t => decide (t.reads = [0x123456789])) = true := by
  decide +kernel
theorem test_rdRemain : nextIs (exec .rdRemain (squeezing 5 0 1089)) (fun t => decide (t.reads = [1089])) = true := by decide +kernel
-- B5.
theorem test_wrLane : nextIs (exec (.wrLane 24 0xDEADBEEF) State.reset) (lanesAre [(24, 0xDEADBEEF)]) = true := by decide +kernel
theorem test_rdLane : nextIs (exec (.rdLane 24) (withLanes [(24, 0xDEADBEEF)])) (fun t => decide (t.reads = [0xDEADBEEF])) = true := by
  decide +kernel
-- B15: a LANE read is held while BUSY = 1, with the access still outstanding.
theorem test_rdLane_stalls : nextIs (step { running 5 with events := [rdReg (.lane 0)] })
    (fun t => decide (t.rnd = 6) && decide (t.events = [rdReg (.lane 0)]) && decide (t.reads = [])) = true := by decide +kernel
-- B8, B9: a misaligned read returns 0 and records E_ADDR, also while BUSY = 1.
theorem test_refused_read : nextIs (step { running 5 with events := [.access (.read 0x012 0xFF)] })
    (fun t => decide (t.err = 1) && decide (t.reads = [0]) && decide (t.rnd = 5)) = true := by decide +kernel
-- R95: the step of round 23 ends the permutation.
theorem test_engine_last_round : nextIs (step (running 23)) (fun t => decide (statusWord t = 0x48000000)) = true := by decide +kernel
-- R173.
theorem test_reset_during : step { State.reset with events := [.resetDuring (.read 0 0xFF)] } = .refused .resetDuringAccess := rfl
-- R158, R52: the access reaches the block whose window holds its address.
theorem test_route : (Platform.route [⟨0x1000, State.reset⟩, ⟨0x2000, State.reset⟩] ⟨0x2010, 0xFF, none⟩).map
    (fun p => p.map fun b => b.state.events) = some [[], [.access (.read 0x010 0xFF)]] := by decide +kernel
-- W1's padding: the one block of SHA3-256 of the empty message.
theorem test_pad : (paddedMessage .sha3_256 []).length = 1088 ∧ wordOfBits ((paddedMessage .sha3_256 []).take 64) = 6 := by decide +kernel

/-! ### Witnesses: the hypotheses of each statement can be met -/

theorem absorbing_invariants : Invariants (absorbing 1 3) := by constructor <;> decide
theorem absorbing_last_invariants : Invariants (absorbing 1 16) := by constructor <;> decide
theorem squeezing_invariants : Invariants (squeezing 1 3 200) := by constructor <;> decide
theorem squeezing_last_invariants : Invariants (squeezing 1 16 65) := by constructor <;> decide
theorem squeezing_end_invariants : Invariants (squeezing 1 3 64) := by constructor <;> decide
theorem idle_invariants : Invariants { State.reset with func := 1, lanes := Vector.replicate 25 7 } := by constructor <;> decide

theorem witness_StepRunsTheDecodedAccess : ∃ (s : State) (r : Request) (rest : List Event) (i : Instr),
    s.events = .access r :: rest ∧ decodeAccess r = .ok i :=
  ⟨{ State.reset with events := [rdReg .status] }, _, _, _, rfl, rfl⟩
theorem witness_TableWordRunsItsInstruction : decodeTableWord 16 0x3C0 = some (.wrLane 24 0) := by decide
theorem witness_CmdWritePerformsItsCommand : decodeCommand 0x5 = .ok .theta ∧ State.reset.busy = false := by decide
theorem witness_IllegalCommandWord_opcode : (0xC#64).extractLsb' 0 5 = 12 ∧ State.reset.busy = false := by decide
theorem witness_IllegalCommandWord_index : (0x1809#64).extractLsb' 0 5 = 9 ∧ (0x1809#64).extractLsb' 5 3 = 0 ∧
    (0x1809#64).extractLsb' 13 51 = 0 ∧ (0x1809#64).extractLsb' 8 5 = 24 := by decide
theorem witness_IllegalCommandWord_bits : (0x20#64).extractLsb' 0 5 = 0 ∧ (0x20#64).extractLsb' 5 59 ≠ 0 ∧
    (0x10009#64).extractLsb' 13 51 ≠ 0 := by decide
theorem witness_RefusedAccess : ({ State.reset with events := [.access (.read 0x0F8 0xFF)] } : State).events = [.access (.read 0x0F8 0xFF)] ∧
    (0x0F8#9).toNat ≤ 0x0F8 ∧ ({ State.reset with events := [.access (.write 0x038 0xFF 1)] } : State).events =
      [.access (.write 0x038 0xFF 1)] := by decide
theorem witness_DecodeOfEncode : (Instr.wrLane 24 5).wf = true ∧ (Instr.round 23).wf = true := by decide
theorem witness_EncodeOfDecode : decode (.command 0x1709) = .ok (.iota 23) ∧ decode (.access (.read 0x1C0 0xFF)) = .ok (.rdLane 24) := by decide
theorem witness_LaneWindow : State.reset.busy = false ∧ (24#5).toNat < 25 ∧ 25 ≤ (25#5).toNat := by decide
theorem witness_RegisterWritesAreIdempotent_busy : (Instr.wrMode 3).stalls = false ∧ (Instr.wrOutlen 3).stalls = false ∧
    (running 5).busy = true := by decide
theorem witness_RegisterWritesAreIdempotent : ∃ t, State.reset.busy = false ∧ (24#5).toNat < 25 ∧ exec (.wrLane 24 7) State.reset = .next t :=
  ⟨_, rfl, by decide, rfl⟩
theorem witness_RolMovesBitsUpModulo64 : (63 : Nat) < 64 := by decide
/-- The datapath and control statements ask for BUSY = 0 alone: THETA, RHO, PI, CHI, ROUND, PERMUTE, NOP, CLRERR. -/
theorem witness_ready : State.reset.busy = false := rfl
theorem witness_round_index : (23#5).toNat ≤ 23 ∧ 24 ≤ (24#5).toNat := by decide
theorem witness_PermuteThenTwentyFourEngineSteps : ({ State.reset with events := [issue .permute] } : State).busy = false := rfl
theorem witness_EngineStepIsOneRound : (running 23).events = [] ∧ (running 23).busy = true ∧ (running 22).rnd ≠ 23 := by decide
theorem witness_EngineStep_turn : ({ running 23 with events := [.engine] } : State).events = [.engine] ∧ (running 23).rnd = 23 ∧
    ({ State.reset with events := [.engine] } : State).busy = false ∧ State.reset.events = [] := by decide
theorem witness_StallingAccessIsHeldWhileBusy : (Instr.rdLane 24).wf = true ∧ (Instr.rdLane 24).stalls = true ∧ (running 0).busy = true := by
  decide
/-- R91's table, through R90's groups: the first and the last constant, and the first with four bits. -/
theorem test_roundConstant : roundConstant 0 = 1 ∧ roundConstant 2 = 0x800000000000808A ∧ roundConstant 23 = 0x8000000080008008 := by
  decide +kernel
theorem witness_StalledAccessCompletes : ∃ (r : Request) (i : Instr), ({ running 5 with events := [rdReg .dout] } : State).events = [.access r] ∧
    (running 5).busy = true ∧ (running 5).rnd.toNat ≤ 23 ∧ decodeAccess r = .ok i ∧ i.stalls = true :=
  ⟨readOf .dout, .rdDout, rfl, rfl, by decide, rfl, rfl⟩
theorem witness_EngineStepsCommute : (running 23).busy = true ∧ (Instr.wrMode 3).stalls = false ∧
    decodeAccess (.read 0x008 0xFF) = .error .wrongDirection := by decide
theorem witness_EngineStepsCommute_runs : decodeAccess (.read 0x010 0xFF) = .ok .rdStatus ∧ Instr.rdStatus.stalls = false ∧
    decodeAccess (.write 0x018 0xFF 5) = .ok (.wrMode 5) ∧ (Instr.wrMode 5).stalls = false := by decide
theorem witness_InitBeginsAHash : SpongeFn.shake256.num = ({ State.reset with func := 5, outlen := 1 } : State).func ∧
    ({ State.reset with func := 5, outlen := 1 } : State).outlen ≠ 0 ∧ State.reset.busy = false ∧
    SpongeFn.sha3_224.num = State.reset.func ∧ isXof SpongeFn.sha3_224.num = false := by decide
theorem witness_RefusedInit : 6 ≤ ({ State.reset with func := 6 } : State).func.toNat ∧
    ({ State.reset with func := 4 } : State).outlen = 0 ∧ State.reset.busy = false := by decide
theorem witness_AcceptedInitForgets : Invariants { State.reset with func := 1, lanes := Vector.replicate 25 7 } ∧
    Invariants { State.reset with func := 1 } ∧ SpongeFn.sha3_256.num = (1 : BitVec 3) ∧ isXof SpongeFn.sha3_256.num = false :=
  ⟨idle_invariants, by constructor <;> decide, rfl, rfl⟩
theorem witness_DinAbsorbsOneWord : Invariants (absorbing 1 3) ∧ Invariants (absorbing 1 16) ∧ (absorbing 1 3).busy = false ∧
    (absorbing 1 3).lfunc = SpongeFn.sha3_256.num ∧ (absorbing 1 3).lptr.toNat + 1 < SpongeFn.sha3_256.rate / 64 ∧
    (absorbing 1 16).lptr.toNat + 1 = SpongeFn.sha3_256.rate / 64 ∧ Invariants (squeezing 1 3 200) ∧ (squeezing 1 3 200).phase ≠ .absorb :=
  ⟨absorbing_invariants, absorbing_last_invariants, rfl, rfl, by decide, rfl, squeezing_invariants, by decide⟩
theorem witness_FinalPads : Invariants (absorbing 1 16) ∧ (absorbing 1 16).busy = false ∧ (absorbing 1 16).phase = .absorb ∧
    (absorbing 1 16).lfunc = SpongeFn.sha3_256.num ∧ Invariants (squeezing 1 3 200) ∧ (squeezing 1 3 200).phase ≠ .absorb :=
  ⟨absorbing_last_invariants, rfl, rfl, rfl, squeezing_invariants, by decide⟩
theorem witness_FinalRealisesPad101 : Invariants (absorbing 1 16) ∧ (absorbing 1 16).busy = false ∧ ([1, 2, 3, 4, 5, 6, 7] : List Byte).length < 8 ∧
    (absorbing 1 16).phase = .absorb ∧ (absorbing 1 16).lfunc = SpongeFn.sha3_256.num := ⟨absorbing_last_invariants, rfl, by decide, rfl, rfl⟩
theorem witness_DoutDeliversOneWord : Invariants (squeezing 1 3 200) ∧ Invariants (squeezing 1 16 65) ∧ Invariants (squeezing 1 3 64) ∧
    (squeezing 1 3 200).busy = false ∧ (squeezing 1 3 200).phase = .squeeze ∧ (squeezing 1 3 200).lfunc = SpongeFn.sha3_256.num ∧
    64 < (squeezing 1 16 65).rem.toNat ∧ (squeezing 1 16 65).optr.toNat + 1 = SpongeFn.sha3_256.rate / 64 ∧
    (squeezing 1 3 64).rem.toNat ≤ 64 ∧ (squeezing 1 3 200).optr.toNat + 1 < SpongeFn.sha3_256.rate / 64 ∧ (absorbing 1 3).phase ≠ .squeeze :=
  ⟨squeezing_invariants, squeezing_last_invariants, squeezing_end_invariants, rfl, rfl, rfl, by decide, rfl, by decide, by decide, by decide⟩
theorem witness_CapacityLanes : Invariants (absorbing 1 16) ∧ (absorbing 1 16).busy = false ∧ (absorbing 1 16).lfunc = SpongeFn.sha3_256.num ∧
    SpongeFn.sha3_256.rate / 64 ≤ 17 ∧ (17 : Nat) < 25 :=
  ⟨absorbing_last_invariants, rfl, rfl, by decide, by decide⟩
theorem witness_ShorterOutputIsAPrefix : (100 : Nat) ≤ 200 := by decide
theorem witness_HashProcedure : SpongeFn.shake128.admits 1400 = true ∧ SpongeFn.sha3_224.admits 224 = true ∧
    ({ State.reset with events := hashProcedure .sha3_224 [0x61, 0x62, 0x63] 224 ++ [rdReg .status] } : State).events =
      hashProcedure .sha3_224 [0x61, 0x62, 0x63] 224 ++ [rdReg .status] := ⟨by decide, by decide, rfl⟩
theorem witness_HashProcedure_turns : ∃ es, withoutEngineTurns es = hashProcedure .sha3_512 [0x61] 512 ∧ .engine ∈ es :=
  ⟨.engine :: hashProcedure .sha3_512 [0x61] 512, by decide, List.mem_cons_self ..⟩
theorem witness_ResetEvent : ({ running 9 with events := [.reset] } : State).events = [.reset] := rfl
theorem witness_SresetEqualsTheResetEvent : ({ absorbing 1 3 with events := [issue .sreset] } : State).events = [.access (writeOf .cmd 0xB)] ∧
    (absorbing 1 3).busy = false := ⟨rfl, rfl⟩
theorem witness_ResetDuringAnAccess : ({ running 9 with events := [.resetDuring (readOf .dout)] } : State).events = [.resetDuring (readOf .dout)] := rfl
theorem witness_FirstErrorStands : nextIs (step { State.reset with events := [rdReg .din] }) (fun t => decide (t.err ≠ State.reset.err)) = true := by
  decide +kernel
theorem witness_PhaseChanges : nextIs (step { State.reset with events := [issue .init] }) (fun t => decide (t.phase ≠ State.reset.phase)) = true := by
  decide +kernel
theorem witness_BusyChanges_set : nextIs (step { State.reset with events := [issue .permute] }) (fun t => t.busy) = true := by decide +kernel
theorem witness_BusyChanges_clear : (running 23).busy = true ∧ nextIs (step (running 23)) (fun t => !t.busy) = true := by decide +kernel
theorem witness_FunctionAndRemainChange : nextIs (step { squeezing 1 3 200 with events := [rdReg .dout] }) (fun t => decide (t.rem ≠ 200)) = true := by
  decide +kernel
theorem witness_EveryStepKeepsTheInvariants : ∃ t, Invariants (absorbing 1 3) ∧ step (absorbing 1 3) = .next t := ⟨_, absorbing_invariants, rfl⟩
theorem witness_PointersStay : ∃ t, Invariants (absorbing 1 3) ∧ Host.Core.run Sys2Proof.core 1 (absorbing 1 3) = .next t :=
  ⟨_, absorbing_invariants, run_succ 0 _ _ (step_nil _ rfl)⟩
theorem witness_BlocksShareNothing_step : (Platform.stepBlock [⟨0x1000, State.reset⟩, ⟨0x2000, State.reset⟩] 1).isSome = true := by decide +kernel
theorem witness_BlocksShareNothing_delivery : (⟨0x2010, 0xFF, none⟩ : PlatformAccess).at 0x2000 = some (.read 0x010 0xFF) ∧
    (⟨0x2010, 0xFF, none⟩ : PlatformAccess).at 0x1000 = none ∧ (⟨0x21FF, 0xFF, some 3⟩ : PlatformAccess).at 0x2000 = some (.write 0x1FF 0xFF 3) ∧
    (⟨0x2200, 0xFF, none⟩ : PlatformAccess).at 0x2000 = none := by decide
theorem witness_BlocksShareNothing_stepped : ∃ t, ([⟨0x1000, State.reset⟩, ⟨0x2000, running 5⟩] : Platform)[1]? = some ⟨0x2000, running 5⟩ ∧
    step (running 5) = .next t := ⟨_, rfl, step_nil _ rfl⟩
theorem witness_BlocksShareNothing_route : (Platform.route [⟨0x1000, State.reset⟩] ⟨0x11F8, 0xFF, some 3⟩).isSome = true ∧
    (Platform.route [⟨0x1000, State.reset⟩] ⟨0x1200, 0xFF, some 3⟩) = none := by decide +kernel

-- R83, R95: two rounds are left; the reads before them see BUSY, the one after them does not, and the loop ends there.
theorem test_poll : (poll [0, 1, 0, 1, 5] (running 22)).map (fun t => (t.reads, t.busy)) =
    some ([0x48001601, 0x48001701, 0x48001701, 0x48000000], false) := by decide +kernel
theorem test_poll_goes_on : poll [0, 1, 0] (running 22) = none := by decide +kernel
theorem witness_Poll_ends : (poll [3] (running 23)).isSome = true := by decide +kernel
theorem witness_Poll_busy : (running 22).busy = true ∧ (running 22).rnd.toNat ≤ 23 ∧ 24 - (running 22).rnd.toNat ≤ [0, 1, 0, 1, 5].sum ∧
    State.reset.busy = false := by decide

end Sys2Proof.Tests
end

section
/-! PROOFS. Rotation of a lane (R12). -/

namespace Sys2Proof.Machine

/-- The bits below the amount come round from the top; the others move up. -/
theorem getLsbD_rol64 (v : Word) (n : Nat) {z : Nat} (hz : z < 64) :
    (rol64 v n).getLsbD z = v.getLsbD ((z + 64 - n % 64) % 64) := by
  rw [rol64, BitVec.getLsbD_rotateLeft]
  by_cases hwrap : z < n % 64
  · have hsource : (z + 64 - n % 64) % 64 = 64 - n % 64 + z := by omega
    simp [hwrap, hsource]
  · have hsource : (z + 64 - n % 64) % 64 = z - n % 64 := by omega
    simp [hwrap, hsource, hz]

@[simp] theorem rol64_zero (v : Word) : rol64 v 0 = v := by
  refine BitVec.eq_of_getLsbD_eq fun z hz => ?_
  have hsource : (z + 64 - 0 % 64) % 64 = z := by omega
  rw [getLsbD_rol64 v 0 hz, hsource]

@[simp] theorem rol64_mod_64 (v : Word) (n : Nat) : rol64 v (n % 64) = rol64 v n :=
  BitVec.rotateLeft_mod_eq_rotateLeft

/-- Settles O14: the bit formula gives the wrap of bit 63 at z = 0, n = 1. -/
theorem rolMovesBitsUpModulo64 : Obligations.RolMovesBitsUpModulo64 := by
  intro v n z hz
  exact ⟨getLsbD_rol64 v n hz, rol64_zero v, getLsbD_rol64 v 1 (by decide), (rol64_mod_64 v n).symm⟩

end Sys2Proof.Machine
end

section
/-! PROOFS. The STATUS word, field by field (R42, R126). -/

namespace Sys2Proof.Machine

/-- A field placed at bit `lo` is read back there. -/
theorem extract_placed_same {n : Nat} (x : BitVec n) {lo : Nat} (h : lo + n ≤ 64) :
    (x.setWidth 64 <<< lo).extractLsb' lo n = x := by
  refine BitVec.eq_of_getLsbD_eq fun i hi => ?_
  simp [hi, show lo + i < 64 by omega, show ¬ lo + i < lo by omega]

/-- A field placed at bit `lo` puts nothing into the bits below it or above its end. -/
theorem extract_placed_apart {n : Nat} (x : BitVec n) {lo k w : Nat} (h : k + w ≤ lo ∨ lo + n ≤ k) :
    (x.setWidth 64 <<< lo).extractLsb' k w = 0 := by
  refine BitVec.eq_of_getLsbD_eq fun i hi => ?_
  rcases h with hbelow | habove
  · simp [show k + i < lo by omega]
  · simp [BitVec.getLsbD_of_ge x (k + i - lo) (by omega)]

/-- The STATUS word with every field written as placed, BUSY at bit 0. -/
theorem statusWord_eq_placed (s : State) :
    statusWord s = (BitVec.ofBool s.busy).setWidth 64 <<< 0 ||| s.phase.code.setWidth 64 <<< 1 ||| s.err.setWidth 64 <<< 4
      ||| s.rnd.setWidth 64 <<< 8 ||| s.lptr.setWidth 64 <<< 13 ||| s.optr.setWidth 64 <<< 18 ||| s.lfunc.setWidth 64 <<< 23
      ||| (rateLanes s.lfunc).setWidth 64 <<< 26 := by
  rw [statusWord, BitVec.shiftLeft_zero]

/-- Each field of the STATUS word in its place, zeros between (R42). -/
theorem statusWord_fields (s : State) :
    (statusWord s).extractLsb' 0 1 = BitVec.ofBool s.busy ∧
    (statusWord s).extractLsb' 1 2 = s.phase.code ∧
    (statusWord s).extractLsb' 3 1 = 0 ∧
    (statusWord s).extractLsb' 4 4 = s.err ∧
    (statusWord s).extractLsb' 8 5 = s.rnd ∧
    (statusWord s).extractLsb' 13 5 = s.lptr ∧
    (statusWord s).extractLsb' 18 5 = s.optr ∧
    (statusWord s).extractLsb' 23 3 = s.lfunc ∧
    (statusWord s).extractLsb' 26 5 = rateLanes s.lfunc ∧
    (statusWord s).extractLsb' 31 33 = 0 := by
  rw [statusWord_eq_placed]
  simp (disch := omega) only [BitVec.extractLsb'_or, extract_placed_same, extract_placed_apart, BitVec.ofNat_eq_ofNat,
    BitVec.zero_or, BitVec.or_zero, and_self]

/-- One bit of a word is the field of width 1 there. -/
theorem getLsbD_of_extract {v : Word} {k : Nat} {b : Bool} (h : v.extractLsb' k 1 = BitVec.ofBool b) : v.getLsbD k = b := by
  have h0 : (v.extractLsb' k 1).getLsbD 0 = b := by simp [h]
  simpa using h0

/-- Settles O10. -/
theorem statusReadShowsEveryField : Obligations.StatusReadShowsEveryField := by
  intro s
  obtain ⟨hbusy, hphase, hzero, herr, hrnd, hlptr, hoptr, hlfunc, hrate, htop⟩ := statusWord_fields s
  refine ⟨statusWord s, rfl, getLsbD_of_extract hbusy, ?_, getLsbD_of_extract hzero, herr, hrnd, hlptr, hoptr, hlfunc, ?_, htop⟩
  · rw [hphase]
    cases s.phase <;> rfl
  · intro f hf
    rw [hrate, hf, ← rateLanes_num, BitVec.ofNat_toNat, BitVec.setWidth_eq]

end Sys2Proof.Machine
end

section
/-! PROOFS. What a step can do to the registers of the protocol: BUSY, PHASE, RND, LPTR, OPTR, LFUNC and REM (R32 to R39). -/

namespace Sys2Proof.Machine

/-- From `s` to `t` no register of the protocol changes, and ERR stays in its range (R146). -/
structure KeepsProtocol (s t : State) : Prop where
  busy : t.busy = s.busy
  phase : t.phase = s.phase
  rnd : t.rnd = s.rnd
  lptr : t.lptr = s.lptr
  optr : t.optr = s.optr
  lfunc : t.lfunc = s.lfunc
  rem : t.rem = s.rem
  errRange : s.err.toNat ≤ 6 → t.err.toNat ≤ 6

theorem KeepsProtocol.refl (s : State) : KeepsProtocol s s := ⟨rfl, rfl, rfl, rfl, rfl, rfl, rfl, id⟩

theorem KeepsProtocol.trans {s t u : State} (h : KeepsProtocol s t) (k : KeepsProtocol t u) : KeepsProtocol s u :=
  ⟨k.busy.trans h.busy, k.phase.trans h.phase, k.rnd.trans h.rnd, k.lptr.trans h.lptr, k.optr.trans h.optr,
    k.lfunc.trans h.lfunc, k.rem.trans h.rem, k.errRange ∘ h.errRange⟩

/-- The lanes, MODE, OUTLEN and what stands outside the block are no registers of the protocol. -/
theorem keeps_update (s : State) (lanes : Lanes) (func : BitVec 3) (outlen : Word) (events : List Event) (reads : List Word) :
    KeepsProtocol s { s with lanes := lanes, func := func, outlen := outlen, events := events, reads := reads } :=
  ⟨rfl, rfl, rfl, rfl, rfl, rfl, rfl, id⟩

theorem keeps_retire (s : State) : KeepsProtocol s (retire s) := keeps_update s ..

theorem keeps_respond (v : Word) (s : State) : KeepsProtocol s (respond v s) := keeps_update s ..

theorem keeps_mapLanes (f : Lanes → Lanes) (s : State) : KeepsProtocol s (mapLanes f s) := keeps_update s ..

theorem keeps_clearErr (s : State) : KeepsProtocol s (clearErr s) :=
  ⟨rfl, rfl, rfl, rfl, rfl, rfl, rfl, fun _ => Nat.zero_le 6⟩

theorem keeps_recordErr (c : ErrCode) (s : State) : KeepsProtocol s (recordErr c s) := by
  refine ⟨by simp, by simp, by simp, by simp, by simp, by simp, by simp, fun h => ?_⟩
  rw [recordErr_err]
  split
  · exact (errCode_range c).2
  · exact h

theorem keeps_withRoundIndex (ir : BitVec 5) (f : Lanes → Lanes) (s : State) :
    KeepsProtocol s (withRoundIndex ir (mapLanes f) s) := by
  unfold withRoundIndex
  split
  · exact keeps_mapLanes f s
  · exact keeps_recordErr .arg s

theorem keeps_refusedData (r : Request) (s : State) : KeepsProtocol s (refusedData r s) := by
  cases r with
  | read off be => exact keeps_respond 0 s
  | write off be v => exact KeepsProtocol.refl s

/-- The access at the head of the host's list is the instruction, and the block is not busy. -/
def Ready (s : State) (i : Instr) : Prop :=
  s.busy = false ∧ ∃ r rest, s.events = .access r :: rest ∧ decodeAccess r = .ok i

/-- The access at the head of the host's list is a write of CMD with the command, and the block is not busy. -/
def ReadyCommand (s : State) (c : Instr) : Prop := ∃ v, Ready s (.wrCmd v) ∧ decodeCommand v = .ok c

/-- What a step does to the registers of the protocol: nothing, one round, a reset, or one of the six operations that move them. -/
inductive ProtocolMove (s t : State) : Prop where
  | keeps (kept : KeepsProtocol s t)
  | round (busy : s.busy = true) (kept : KeepsProtocol (engineStep s) t) (lanes : t.lanes = (engineStep s).lanes)
  | reset (rest : List Event) (event : s.events = .reset :: rest) (next : t = retire (blockReset s))
  | permute (ready : ReadyCommand s .permute) (next : t = retire (startPerm s))
  | init (ready : ReadyCommand s .init) (next : t = retire (initHash s))
  | sreset (ready : ReadyCommand s .sreset) (next : t = retire (blockReset s))
  | final (nb : BitVec 3) (tail : BitVec 56) (ready : ReadyCommand s (.final nb tail)) (phase : s.phase = .absorb)
      (next : t = retire (padBlock nb tail s))
  | din (v : Word) (ready : Ready s (.wrDin v)) (phase : s.phase = .absorb) (next : t = retire (absorbWord v s))
  | dout (ready : Ready s .rdDout) (phase : s.phase = .squeeze)
      (next : t = retire (respond (outputWord s) (consumeWord s)))

/-- An effect that leaves the registers of the protocol is no move when the access completes. -/
theorem ProtocolMove.ofEffect {s u : State} (h : KeepsProtocol s u) : ProtocolMove s (retire u) :=
  .keeps (h.trans (keeps_retire u))

/-- The move of an engine turn: one round if the block is busy, else nothing (R95). -/
theorem engineTurn_move (s t : State) (kept : KeepsProtocol (engineTurn s) t) (lanes : t.lanes = (engineTurn s).lanes) :
    ProtocolMove s t := by
  unfold engineTurn at kept lanes
  split at kept
  · next hbusy => exact .round hbusy kept (by rw [lanes, if_pos hbusy])
  · exact .keeps kept

/-- The move of a command that completes (R122 to R124, R97 to R103, R108, R110). -/
theorem commandEffect_move (s : State) (c : Instr) (hr : ReadyCommand s c) : ProtocolMove s (retire (commandEffect c s)) := by
  cases c with
  | nop => exact .ofEffect (KeepsProtocol.refl s)
  | init => exact .init hr rfl
  | final nb tail =>
    by_cases hphase : s.phase = .absorb
    · exact .final nb tail hr hphase (by simp only [commandEffect, finalPad, if_pos hphase])
    · simp only [commandEffect, finalPad, if_neg hphase]
      exact .ofEffect (keeps_recordErr .phase s)
  | permute => exact .permute hr rfl
  | round ir => exact .ofEffect (keeps_withRoundIndex ir _ s)
  | theta | rho | pi | chi => exact .ofEffect (keeps_mapLanes _ s)
  | iota ir => exact .ofEffect (keeps_withRoundIndex ir _ s)
  | clrerr => exact .ofEffect (keeps_clearErr s)
  | sreset => exact .sreset hr rfl
  | rdId | wrCmd | rdStatus | rdMode | wrMode | rdOutlen | wrOutlen | wrDin | rdDout | rdRemain | rdLane | wrLane =>
    exact .ofEffect (keeps_recordErr .cmd s)

/-- The move of an access that decodes and completes. -/
theorem instrEffect_move (s : State) (r : Request) (rest : List Event) (i : Instr) (hev : s.events = .access r :: rest)
    (hd : decodeAccess r = .ok i) (hb : waits i = true → s.busy = false) : ProtocolMove s (retire (instrEffect i s)) := by
  have hready (hw : waits i = true) : Ready s i := ⟨hb hw, r, rest, hev, hd⟩
  have hcommand := decodeAccess_not_command r i hd
  cases i with
  | wrCmd v =>
    cases hc : decodeCommand v with
    | ok c => simpa only [instrEffect, hc] using commandEffect_move s c ⟨v, hready rfl, hc⟩
    | error e =>
      simp only [instrEffect, hc]
      exact .ofEffect (keeps_recordErr _ s)
  | rdId | rdStatus | rdMode | rdOutlen | rdRemain => exact .ofEffect (keeps_respond _ s)
  | wrMode v | wrOutlen v => exact .ofEffect (keeps_update s ..)
  | wrDin v =>
    by_cases hphase : s.phase = .absorb
    · exact .din v (hready rfl) hphase (by simp only [instrEffect, dinWrite, if_pos hphase])
    · simp only [instrEffect, dinWrite, if_neg hphase]
      exact .ofEffect (keeps_recordErr .phase s)
  | rdDout =>
    by_cases hphase : s.phase = .squeeze
    · exact .dout (hready rfl) hphase (by simp only [instrEffect, doutRead, if_pos hphase])
    · simp only [instrEffect, doutRead, if_neg hphase]
      exact .ofEffect ((keeps_recordErr .phase s).trans (keeps_respond 0 _))
  | rdLane k =>
    simp only [instrEffect]
    split
    · exact .ofEffect (keeps_respond _ s)
    · exact .ofEffect ((keeps_recordErr .addr s).trans (keeps_respond 0 _))
  | wrLane k v =>
    simp only [instrEffect]
    split
    · exact .ofEffect (keeps_update s ..)
    · exact .ofEffect (keeps_recordErr .addr s)
  | nop | init | final | permute | round | theta | rho | pi | chi | iota | clrerr | sreset => cases hcommand

/-- Every step that answers a next state makes one of the moves. -/
theorem step_move (s t : State) (h : step s = .next t) : ProtocolMove s t := by
  obtain ⟨-, rfl⟩ | ⟨rest, -, rfl⟩ | ⟨rest, hev, rfl⟩ | ⟨r, rest, e, -, -, rfl⟩ | ⟨r, rest, i, -, -, -, hbusy, rfl⟩ |
    ⟨r, rest, i, hev, hd, hb, rfl⟩ := step_cases s t h
  · exact engineTurn_move s _ (.refl _) rfl
  · exact engineTurn_move s _ (keeps_retire _) rfl
  · exact .reset rest hev rfl
  · exact .ofEffect ((keeps_recordErr _ s).trans (keeps_refusedData r _))
  · exact .round hbusy (.refl _) rfl
  · exact instrEffect_move s r rest i hev hd hb

end Sys2Proof.Machine
end

section
/-! PROOFS. The invariants of R49 hold at reset and through every step, so along every run (R174). -/

namespace Sys2Proof.Machine

theorem Invariants.rateLanes_pos {s : State} (h : Invariants s) : 0 < (rateLanes s.lfunc).toNat :=
  Nat.lt_of_le_of_lt (Nat.zero_le _) h.lptrRange

/-- A pointer below RL that does not reach RL by its advance stays below it. -/
theorem succ_lt_of_ne {p rl : BitVec 5} (h : p.toNat < rl.toNat) (hne : p + 1 ≠ rl) : (p + 1).toNat < rl.toNat := by
  bv_omega

/-- A clear pointer is not RL where RL is not 0. -/
theorem zero_ne_of_pos {rl : BitVec 5} (h : 0 < rl.toNat) : 0 ≠ rl := by
  rintro rfl
  exact absurd h (by decide)

/-- The invariants speak of the registers of the protocol and of ERR's range only. -/
theorem Invariants.of_keeps {s t : State} (h : Invariants s) (k : KeepsProtocol s t) : Invariants t := by
  obtain ⟨hbusy, hphase, hrnd, hlptr, hoptr, hlfunc, hrem, herr⟩ := k
  constructor
  case errRange => exact herr h.errRange
  all_goals simp only [hbusy, hphase, hrnd, hlptr, hoptr, hlfunc, hrem]
  exacts [h.idleRnd, h.rndRange, h.lfuncRange, h.lptrRange, h.optrRange, h.optrFull, h.squeezeDue, h.absorbDue,
    h.idlePointers]

/-- Settles O50. -/
theorem resetStateMeetsTheInvariants : Obligations.ResetStateMeetsTheInvariants := by
  constructor <;> decide

theorem blockReset_invariants (s : State) : Invariants (blockReset s) :=
  resetStateMeetsTheInvariants.of_keeps (keeps_update State.reset ..)

/-- A round ends at 23 with BUSY and RND clear, or counts RND up and stays busy (R95). -/
theorem engineStep_invariants {s : State} (h : Invariants s) (hb : s.busy = true) : Invariants (engineStep s) := by
  have hidle : (engineStep s).busy = false → (engineStep s).rnd = 0 := by
    rw [engineStep_busy, engineStep_rnd]
    split
    · exact fun _ => rfl
    · exact fun hfree => absurd (hb.symm.trans hfree) (by decide)
  have hrange : (engineStep s).rnd.toNat ≤ 23 := by
    have hrnd := h.rndRange
    rw [engineStep_rnd]
    split
    · decide
    · bv_omega
  exact ⟨hidle, hrange, h.lfuncRange, h.lptrRange, h.optrRange, h.optrFull, h.squeezeDue, h.absorbDue, h.idlePointers,
    h.errRange⟩

theorem startPerm_invariants {s : State} (h : Invariants s) : Invariants (startPerm s) :=
  { h with idleRnd := fun _ => rfl, rndRange := Nat.zero_le 23 }

/-- A refused INIT leaves a clear sponge (R108). -/
theorem abandon_invariants {s : State} (h : Invariants s) : Invariants (abandon s) where
  idleRnd := h.idleRnd
  rndRange := h.rndRange
  lfuncRange := h.lfuncRange
  lptrRange := h.rateLanes_pos
  optrRange := Nat.zero_le _
  optrFull hfull := absurd hfull (zero_ne_of_pos h.rateLanes_pos)
  squeezeDue hp := nomatch hp
  absorbDue hp := nomatch hp
  idlePointers _ := ⟨rfl, rfl⟩
  errRange := h.errRange

/-- Each function that fixes its length fixes one that is not 0 (R104). -/
theorem fixedOutlen_ne_zero (k : BitVec 3) (h : k.toNat < 4) : fixedOutlen k ≠ 0 := by
  obtain ⟨f, rfl⟩ := num_of_le k (by omega)
  cases f with
  | sha3_224 | sha3_256 | sha3_384 | sha3_512 => decide
  | shake128 | shake256 => exact absurd h (by decide)

/-- The functions 4 and 5 are the XOFs (R104). -/
theorem isXof_of_range (k : BitVec 3) (h4 : 4 ≤ k.toNat) (h6 : k.toNat < 6) : isXof k = true := by
  have hk : k = 4 ∨ k = 5 := by bv_omega
  obtain rfl | rfl := hk <;> rfl

/-- An INIT that R108 accepts begins a hash with output due. -/
theorem beginHash_invariants {s : State} (h : Invariants s) (h6 : s.func.toNat < 6)
    (hout : isXof s.func = true → s.outlen ≠ 0) : Invariants (beginHash s) := by
  have hrate : 0 < (rateLanes s.func).toNat := Nat.lt_of_lt_of_le (by decide) (rateLanes_range s.func (by omega)).1
  have hdue : (beginHash s).rem ≠ 0 := by
    rw [beginHash_rem]
    split
    · next hfixed => exact fixedOutlen_ne_zero s.func hfixed
    · exact hout (isXof_of_range s.func (by omega) h6)
  exact ⟨h.idleRnd, h.rndRange, Nat.le_of_lt_succ h6, hrate, Nat.zero_le _, fun hfull => absurd hfull (zero_ne_of_pos hrate),
    fun _ => hdue, fun _ => hdue, fun _ => ⟨rfl, rfl⟩, h.errRange⟩

theorem initHash_invariants {s : State} (h : Invariants s) : Invariants (initHash s) := by
  have hclear := h.of_keeps (keeps_clearErr s)
  obtain ⟨-, heq⟩ | ⟨-, -, -, heq⟩ | ⟨h6, hout, heq⟩ := initHash_cases s <;> rw [heq]
  · exact (abandon_invariants hclear).of_keeps (keeps_recordErr .mode _)
  · exact (abandon_invariants hclear).of_keeps (keeps_recordErr .len _)
  · exact beginHash_invariants hclear h6 hout

/-- FINAL takes the output due in ABSORB into SQUEEZE, with both pointers clear (R110). -/
theorem padBlock_invariants {s : State} (h : Invariants s) (nb : BitVec 3) (tail : BitVec 56) (hp : s.phase = .absorb) :
    Invariants (padBlock nb tail s) := by
  exact startPerm_invariants
    { h with
      lptrRange := h.rateLanes_pos
      optrRange := Nat.zero_le _
      optrFull := fun hfull => absurd hfull (zero_ne_of_pos h.rateLanes_pos)
      squeezeDue := fun _ => h.absorbDue hp
      absorbDue := fun hp => nomatch hp
      idlePointers := fun hp => nomatch hp }

/-- DIN advances LPTR below RL, or clears it and starts the permutation (R109). -/
theorem absorbWord_invariants {s : State} (h : Invariants s) (v : Word) (hp : s.phase = .absorb) :
    Invariants (absorbWord v s) := by
  have hidle : ¬ s.phase = .idle := by simp [hp]
  obtain ⟨-, heq⟩ | ⟨hne, heq⟩ := absorbWord_cases v s <;> rw [heq]
  · exact startPerm_invariants (s := { s with lanes := xorLane s.lanes s.lptr v, lptr := 0 })
      { h with lptrRange := h.rateLanes_pos, idlePointers := fun hi => absurd hi hidle }
  · exact { h with lptrRange := succ_lt_of_ne h.lptrRange hne, idlePointers := fun hi => absurd hi hidle }

/-- In SQUEEZE, OPTR is below RL: only in DONE may it be RL (R49 (e)). -/
theorem Invariants.optr_lt_of_squeeze {s : State} (h : Invariants s) (hp : s.phase = .squeeze) :
    s.optr.toNat < (rateLanes s.lfunc).toNat := by
  refine Nat.lt_of_le_of_ne h.optrRange fun heq => ?_
  have hdone := h.optrFull (BitVec.eq_of_toNat_eq heq)
  simp [hp] at hdone

/-- DOUT ends the hash, where OPTR may be RL, or leaves output due and OPTR below RL (R113). -/
theorem consumeWord_invariants {s : State} (h : Invariants s) (hp : s.phase = .squeeze) : Invariants (consumeWord s) := by
  have hidle : ¬ s.phase = .idle := by simp [hp]
  have hlt := h.optr_lt_of_squeeze hp
  obtain ⟨-, heq⟩ | ⟨hdue, -, heq⟩ | ⟨hdue, hne, heq⟩ := consumeWord_cases s <;> rw [heq]
  · exact { h with
      optrRange := show (s.optr + 1).toNat ≤ (rateLanes s.lfunc).toNat by bv_omega
      optrFull := fun _ => rfl
      squeezeDue := fun hp => nomatch hp
      absorbDue := fun hp => nomatch hp
      idlePointers := fun hp => nomatch hp }
  · exact startPerm_invariants (s := { s with rem := s.rem - BitVec.ofNat 64 (outputBits s.rem), optr := 0 })
      { h with
        optrRange := Nat.zero_le _
        optrFull := fun hfull => absurd hfull (zero_ne_of_pos h.rateLanes_pos)
        squeezeDue := fun _ => hdue
        absorbDue := fun _ => hdue
        idlePointers := fun hi => absurd hi hidle }
  · exact { h with
      optrRange := Nat.le_of_lt (succ_lt_of_ne hlt hne)
      optrFull := fun hfull => absurd hfull hne
      squeezeDue := fun _ => hdue
      absorbDue := fun _ => hdue
      idlePointers := fun hi => absurd hi hidle }

/-- Settles O51, move by move. -/
theorem everyStepKeepsTheInvariants : Obligations.EveryStepKeepsTheInvariants := by
  intro s t h hstep
  cases step_move s t hstep with
  | keeps kept => exact h.of_keeps kept
  | round busy kept => exact (engineStep_invariants h busy).of_keeps kept
  | reset _ _ next | sreset _ next => exact next ▸ (blockReset_invariants s).of_keeps (keeps_retire _)
  | permute _ next => exact next ▸ (startPerm_invariants h).of_keeps (keeps_retire _)
  | init _ next => exact next ▸ (initHash_invariants h).of_keeps (keeps_retire _)
  | final nb tail _ phase next => exact next ▸ (padBlock_invariants h nb tail phase).of_keeps (keeps_retire _)
  | din v _ phase next => exact next ▸ (absorbWord_invariants h v phase).of_keeps (keeps_retire _)
  | dout _ phase next =>
    exact next ▸ (consumeWord_invariants h phase).of_keeps ((keeps_respond _ _).trans (keeps_retire _))

/-- What every step keeps holds at the end of every run that has one. -/
theorem run_keeps {P : State → Prop} (hstep : ∀ s t, P s → step s = .next t → P t) (k : Nat) {s t : State} (hs : P s)
    (h : Host.Core.run Sys2Proof.core k s = .next t) : P t := by
  induction k generalizing s with
  | zero => exact Host.Outcome.next.inj h ▸ hs
  | succ k ih =>
    cases hu : step s with
    | next u =>
      rw [run_succ k s u hu] at h
      exact ih (hstep s u hs hu) h
    | fault r => cases r
    | refused r =>
      have hcore : Sys2Proof.core.step s = .refused r := hu
      simp only [Host.Core.run, hcore] at h
      cases h

/-- Settles O52. -/
theorem pointersStayInTheRatePart : Obligations.PointersStayInTheRatePart := by
  intro k s t hs hrun
  have ht : Invariants t := run_keeps everyStepKeepsTheInvariants k hs hrun
  obtain ⟨f, hf⟩ := num_of_le t.lfunc ht.lfuncRange
  have hrate : (rateLanes t.lfunc).toNat = f.rate / 64 := hf ▸ rateLanes_num f
  exact ⟨f, hf.symm, hrate ▸ ht.lptrRange, fun hp => hrate ▸ ht.optr_lt_of_squeeze hp⟩

end Sys2Proof.Machine
end

section
/-! PROOFS. Which steps change PHASE, BUSY, LFUNC and REM (R32, R33, R38, R39). -/

namespace Sys2Proof.Machine

@[simp] theorem initHash_busy (s : State) : (initHash s).busy = s.busy := by
  obtain ⟨-, heq⟩ | ⟨-, -, -, heq⟩ | ⟨-, -, heq⟩ := initHash_cases s <;> simp [heq]

/-- INIT goes to ABSORB with ERR clear, or is refused to IDLE with its error recorded (R108). -/
theorem initHash_phase_err (s : State) :
    (initHash s).phase = .absorb ∧ (initHash s).err = 0 ∨ (initHash s).phase = .idle ∧ (initHash s).err ≠ 0 := by
  obtain ⟨-, heq⟩ | ⟨-, -, -, heq⟩ | ⟨-, -, heq⟩ := initHash_cases s <;> rw [heq]
  · exact .inr ⟨by simp, by simp [ErrCode.code]⟩
  · exact .inr ⟨by simp, by simp [ErrCode.code]⟩
  · exact .inl ⟨rfl, rfl⟩

@[simp] theorem absorbWord_phase (v : Word) (s : State) : (absorbWord v s).phase = s.phase := by
  obtain ⟨-, heq⟩ | ⟨-, heq⟩ := absorbWord_cases v s <;> rw [heq]

@[simp] theorem absorbWord_lfunc (v : Word) (s : State) : (absorbWord v s).lfunc = s.lfunc := by
  obtain ⟨-, heq⟩ | ⟨-, heq⟩ := absorbWord_cases v s <;> rw [heq]

@[simp] theorem absorbWord_rem (v : Word) (s : State) : (absorbWord v s).rem = s.rem := by
  obtain ⟨-, heq⟩ | ⟨-, heq⟩ := absorbWord_cases v s <;> rw [heq]

/-- DIN starts the permutation only where it completes its block, or leaves BUSY (R109). -/
theorem absorbWord_busy (v : Word) (s : State) :
    (absorbWord v s).busy = s.busy ∨
      (absorbWord v s).busy = true ∧ (absorbWord v s).rnd = 0 ∧ (absorbWord v s).lptr = 0 := by
  obtain ⟨-, heq⟩ | ⟨-, heq⟩ := absorbWord_cases v s <;> rw [heq]
  · exact .inr ⟨rfl, rfl, rfl⟩
  · exact .inl rfl

/-- DOUT starts the permutation only where it empties its block with output due, or leaves BUSY (R113). -/
theorem consumeWord_busy (s : State) :
    (consumeWord s).busy = s.busy ∨
      (consumeWord s).busy = true ∧ (consumeWord s).rnd = 0 ∧ (consumeWord s).optr = 0 ∧ (consumeWord s).rem ≠ 0 := by
  obtain ⟨-, heq⟩ | ⟨hdue, -, heq⟩ | ⟨-, -, heq⟩ := consumeWord_cases s <;> rw [heq]
  · exact .inl rfl
  · exact .inr ⟨rfl, rfl, rfl, hdue⟩
  · exact .inl rfl

/-- DOUT leaves PHASE, or ends the hash with REM = 0 (R113). -/
theorem consumeWord_phase (s : State) :
    (consumeWord s).phase = s.phase ∨ (consumeWord s).phase = .done ∧ (consumeWord s).rem = 0 := by
  obtain ⟨-, heq⟩ | ⟨-, -, heq⟩ | ⟨-, -, heq⟩ := consumeWord_cases s <;> rw [heq]
  · exact .inr ⟨rfl, rfl⟩
  · exact .inl rfl
  · exact .inl rfl

@[simp] theorem consumeWord_lfunc (s : State) : (consumeWord s).lfunc = s.lfunc := by
  obtain ⟨-, heq⟩ | ⟨-, -, heq⟩ | ⟨-, -, heq⟩ := consumeWord_cases s <;> rw [heq]

/-- DOUT lowers REM by the bits it delivers (R113). -/
theorem consumeWord_rem (s : State) : (consumeWord s).rem = s.rem - BitVec.ofNat 64 (outputBits s.rem) := by
  obtain ⟨hleft, heq⟩ | ⟨-, -, heq⟩ | ⟨-, -, heq⟩ := consumeWord_cases s <;> rw [heq]
  exact hleft.symm

theorem consumeWord_rem_lt (s : State) (h : s.rem ≠ 0) : (consumeWord s).rem.toNat < s.rem.toNat := by
  have hbits : outputBits s.rem = min s.rem.toNat 64 := rfl
  rw [consumeWord_rem, hbits]
  bv_omega

/-- Settles O47, move by move. -/
theorem phaseChangesOnlyByTheProtocol : Obligations.PhaseChangesOnlyByTheProtocol := by
  intro s t hstep hne
  cases step_move s t hstep with
  | keeps kept => exact absurd kept.phase hne
  | round _ kept => exact absurd kept.phase hne
  | reset rest event next => exact .inl ⟨next ▸ rfl, rest, event⟩
  | permute _ next => exact absurd (next ▸ rfl) hne
  | init ready next =>
    obtain ⟨v, ⟨hb, r, rest, hev, hd⟩, hc⟩ := ready
    subst next
    exact .inr ⟨hb, r, rest, hev, .inr ⟨v, hd, .inl ⟨hc, initHash_phase_err s⟩⟩⟩
  | sreset ready next =>
    obtain ⟨v, ⟨hb, r, rest, hev, hd⟩, hc⟩ := ready
    exact .inr ⟨hb, r, rest, hev, .inr ⟨v, hd, .inr (.inl ⟨hc, next ▸ rfl⟩)⟩⟩
  | final nb tail ready phase next =>
    obtain ⟨v, ⟨hb, r, rest, hev, hd⟩, hc⟩ := ready
    exact .inr ⟨hb, r, rest, hev, .inr ⟨v, hd, .inr (.inr ⟨nb, tail, hc, phase, next ▸ rfl⟩)⟩⟩
  | din v _ _ next => exact absurd (next ▸ absorbWord_phase v s) hne
  | dout ready phase next =>
    obtain ⟨hb, r, rest, hev, hd⟩ := ready
    subst next
    obtain hsame | ⟨hdone, hrem⟩ := consumeWord_phase s
    · exact absurd hsame hne
    · exact .inr ⟨hb, r, rest, hev, .inl ⟨phase, hdone, hrem, hd⟩⟩

/-- A step that sets BUSY starts a permutation (R94). -/
theorem step_sets_busy {s t : State} (hstep : step s = .next t) (hs : s.busy = false) (ht : t.busy = true) :
    t.rnd = 0 ∧ (ReadyCommand s .permute ∨ (∃ nb tail, ReadyCommand s (.final nb tail) ∧ s.phase = .absorb) ∨
      (∃ v, Ready s (.wrDin v) ∧ s.phase = .absorb ∧ t.lptr = 0) ∨
      (Ready s .rdDout ∧ s.phase = .squeeze ∧ t.optr = 0 ∧ t.rem ≠ 0)) := by
  have hset : t.busy ≠ s.busy := by simp [hs, ht]
  cases step_move s t hstep with
  | keeps kept => exact absurd kept.busy hset
  | round busy => exact absurd (ht.trans busy.symm) hset
  | reset _ _ next | sreset _ next => exact absurd (hs.trans (next ▸ rfl : false = t.busy)).symm hset
  | permute ready next => exact ⟨next ▸ rfl, .inl ready⟩
  | init _ next => exact absurd (next ▸ initHash_busy s) hset
  | final nb tail ready phase next => exact ⟨next ▸ rfl, .inr (.inl ⟨nb, tail, ready, phase⟩)⟩
  | din v ready phase next =>
    subst next
    obtain hsame | ⟨-, hrnd, hlptr⟩ := absorbWord_busy v s
    · exact absurd hsame hset
    · exact ⟨hrnd, .inr (.inr (.inl ⟨v, ready, phase, hlptr⟩))⟩
  | dout ready phase next =>
    subst next
    obtain hsame | ⟨-, hrnd, hoptr, hrem⟩ := consumeWord_busy s
    · exact absurd hsame hset
    · exact ⟨hrnd, .inr (.inr (.inr ⟨ready, phase, hoptr, hrem⟩))⟩

/-- A step that clears BUSY is the reset event or the round of index 23 (R95). -/
theorem step_clears_busy {s t : State} (hstep : step s = .next t) (hs : s.busy = true) (ht : t.busy = false) :
    (∃ rest, s.events = .reset :: rest) ∨ (s.rnd = 23 ∧ t.rnd = 0 ∧ t.lanes = keccakRound s.lanes 23) := by
  have hclear : t.busy ≠ s.busy := by simp [hs, ht]
  cases step_move s t hstep with
  | keeps kept => exact absurd kept.busy hclear
  | round busy kept lanes =>
    have hlast : s.rnd = 23 := by
      by_contra hne
      exact hclear (by rw [kept.busy, engineStep_busy, if_neg hne])
    exact .inr ⟨hlast, by simp [kept.rnd, hlast], by simp [lanes, hlast]⟩
  | reset rest event => exact .inl ⟨rest, event⟩
  | permute ready | init ready | sreset ready | final _ _ ready =>
    obtain ⟨_, ⟨hb, -⟩, -⟩ := ready
    exact absurd (hs.symm.trans hb) (by decide)
  | din _ ready | dout ready => exact absurd (hs.symm.trans ready.1) (by decide)

/-- Settles O48. -/
theorem busyChangesOnlyByStartAndLastRound : Obligations.BusyChangesOnlyByStartAndLastRound := by
  intro s t hstep
  refine ⟨fun hs ht => ?_, step_clears_busy hstep⟩
  obtain ⟨hrnd, hcause⟩ := step_sets_busy hstep hs ht
  refine ⟨hrnd, ?_⟩
  obtain ⟨v, ⟨-, r, rest, hev, hd⟩, hc⟩ | ⟨nb, tail, ⟨v, ⟨-, r, rest, hev, hd⟩, hc⟩, hphase⟩ |
    ⟨v, ⟨-, r, rest, hev, hd⟩, hphase, hlptr⟩ | ⟨⟨-, r, rest, hev, hd⟩, hphase, hoptr, hrem⟩ := hcause
  · exact ⟨r, rest, hev, .inl ⟨v, hd, .inl hc⟩⟩
  · exact ⟨r, rest, hev, .inl ⟨v, hd, .inr ⟨nb, tail, hc, hphase⟩⟩⟩
  · exact ⟨r, rest, hev, .inr (.inl ⟨v, hd, hphase, hlptr⟩)⟩
  · exact ⟨r, rest, hev, .inr (.inr ⟨hd, hphase, hoptr, hrem⟩)⟩

/-- Settles O49, move by move. -/
theorem functionAndRemainChangeOnlyByTheirOperations : Obligations.FunctionAndRemainChangeOnlyByTheirOperations := by
  intro s t hstep hne
  have hmoved : ¬ (t.lfunc = s.lfunc ∧ t.rem = s.rem) := fun ⟨hlfunc, hrem⟩ =>
    hne.elim (· hlfunc) (· hrem)
  cases step_move s t hstep with
  | keeps kept => exact absurd ⟨kept.lfunc, kept.rem⟩ hmoved
  | round _ kept => exact absurd ⟨kept.lfunc, kept.rem⟩ hmoved
  | reset rest event => exact .inl ⟨rest, event⟩
  | permute _ next | final _ _ _ _ next => exact absurd (next ▸ ⟨rfl, rfl⟩) hmoved
  | init ready =>
    obtain ⟨v, ⟨hb, r, rest, hev, hd⟩, hc⟩ := ready
    exact .inr ⟨hb, r, rest, hev, .inl ⟨v, hd, .inl hc⟩⟩
  | sreset ready =>
    obtain ⟨v, ⟨hb, r, rest, hev, hd⟩, hc⟩ := ready
    exact .inr ⟨hb, r, rest, hev, .inl ⟨v, hd, .inr hc⟩⟩
  | din v _ _ next => exact absurd (next ▸ ⟨absorbWord_lfunc v s, absorbWord_rem v s⟩) hmoved
  | dout ready phase next =>
    obtain ⟨hb, r, rest, hev, hd⟩ := ready
    subst next
    have hlfunc := consumeWord_lfunc s
    have hdue : s.rem ≠ 0 := fun hzero => hmoved ⟨hlfunc, show (consumeWord s).rem = s.rem by
      rw [consumeWord_rem, hzero]; rfl⟩
    exact .inr ⟨hb, r, rest, hev, .inr ⟨hd, phase, hlfunc, consumeWord_rem_lt s hdue⟩⟩

end Sys2Proof.Machine
end

section
/-! PROOFS. Refused accesses (R54 to R56), and the accesses that decode. -/

namespace Sys2Proof

theorem wholeAligned_iff (off : BitVec 9) (be : BitVec 8) :
    wholeAligned off be = true ↔ off.toNat % 8 = 0 ∧ be = 0xFF := by
  simp [wholeAligned]

/-- The two reserved parts of the window (R56). -/
theorem regAt_reserved (off : BitVec 9) (h : (0x040 ≤ off.toNat ∧ off.toNat ≤ 0x0F8) ∨ 0x1C8 ≤ off.toNat) :
    regAt off = none := by
  unfold regAt
  split
  case h_9 => exact if_neg (by omega)
  all_goals omega

/-- Only the lanes 0 to 24 have an offset (R30, R53). -/
theorem lane_le_of_regAt (off : BitVec 9) (i : BitVec 5) (h : regAt off = some (.lane i)) : i.toNat ≤ 24 := by
  unfold regAt at h
  split at h
  case h_9 =>
    split at h
    · cases h
      rw [BitVec.toNat_ofNat]
      omega
    · cases h
  all_goals cases h

/-- What a register's offset decodes to is admitted by the encodings. -/
theorem decodeAccess_wf (r : Request) (i : Instr) (h : decodeAccess r = .ok i) : i.wf = true := by
  cases r with
  | read off be | write off be v =>
    simp only [decodeAccess] at h
    split at h
    · split at h <;> cases h
      case h_10.refl hk => exact decide_eq_true (lane_le_of_regAt off _ hk)
      all_goals rfl
    · cases h

/-- Every refusal of an access is one with E_ADDR (R54 to R56). -/
theorem rejectCode_of_decodeAccess (r : Request) (e : Reject) (h : decodeAccess r = .error e) :
    Machine.rejectCode e = .addr := by
  cases r with
  | read off be | write off be v =>
    simp only [decodeAccess] at h
    split at h
    · split at h <;> cases h <;> rfl
    · cases h
      rfl

/-- The grounds on which R54 and R56 refuse an access in either direction. -/
def OffsetRefused (off : BitVec 9) (be : BitVec 8) : Prop :=
  off.toNat % 8 ≠ 0 ∨ be ≠ 0xFF ∨ (0x040 ≤ off.toNat ∧ off.toNat ≤ 0x0F8) ∨ 0x1C8 ≤ off.toNat

/-- An access that is not whole and aligned, or at a reserved offset, decodes to no instruction. -/
theorem not_aligned_or_regAt_none {off : BitVec 9} {be : BitVec 8} (h : OffsetRefused off be) :
    ¬ wholeAligned off be = true ∨ regAt off = none := by
  rw [wholeAligned_iff]
  obtain hmod | hbe | hres := h
  · exact .inl fun ⟨hzero, _⟩ => hmod hzero
  · exact .inl fun ⟨_, hfull⟩ => hbe hfull
  · exact .inr (regAt_reserved off hres)

theorem decodeAccess_read_refused {off : BitVec 9} {be : BitVec 8}
    (h : OffsetRefused off be ∨ off.toNat = 0x008 ∨ off.toNat = 0x028) : ∃ e, decodeAccess (.read off be) = .error e := by
  by_cases hwhole : wholeAligned off be = true
  · have hreg : regAt off = none ∨ regAt off = some .cmd ∨ regAt off = some .din := by
      obtain hoff | hcmd | hdin := h
      · exact .inl ((not_aligned_or_regAt_none hoff).resolve_left (not_not_intro hwhole))
      · simp [regAt, hcmd]
      · simp [regAt, hdin]
    obtain hreg | hreg | hreg := hreg <;> exact ⟨_, by simp only [decodeAccess, hwhole, hreg, if_true]; rfl⟩
  · exact ⟨.misaligned, if_neg hwhole⟩

theorem decodeAccess_write_refused {off : BitVec 9} {be : BitVec 8} (v : Word)
    (h : OffsetRefused off be ∨ off.toNat = 0x000 ∨ off.toNat = 0x010 ∨ off.toNat = 0x030 ∨ off.toNat = 0x038) :
    ∃ e, decodeAccess (.write off be v) = .error e := by
  by_cases hwhole : wholeAligned off be = true
  · have hreg : regAt off = none ∨ regAt off = some .id ∨ regAt off = some .status ∨ regAt off = some .dout ∨
        regAt off = some .remain := by
      obtain hoff | hid | hstatus | hdout | hremain := h
      · exact .inl ((not_aligned_or_regAt_none hoff).resolve_left (not_not_intro hwhole))
      · simp [regAt, hid]
      · simp [regAt, hstatus]
      · simp [regAt, hdout]
      · simp [regAt, hremain]
    obtain hreg | hreg | hreg | hreg | hreg := hreg <;>
      exact ⟨_, by simp only [decodeAccess, hwhole, hreg, if_true]; rfl⟩
  · exact ⟨.misaligned, if_neg hwhole⟩

end Sys2Proof

namespace Sys2Proof.Machine

/-- RecordErr as one update of ERR (R147). -/
theorem recordErr_eq (c : ErrCode) (s : State) : recordErr c s = { s with err := if s.err = 0 then c.code else s.err } := by
  unfold recordErr
  split <;> rfl

/-- The step of a refused access: E_ADDR if no error stands recorded, and 0 returned to a read (R54, R147). -/
theorem step_addressError (s : State) (r : Request) (rest : List Event) (h : s.events = .access r :: rest)
    (hd : ∃ e, decodeAccess r = .error e) :
    step s = .next (refusedData r { s with err := if s.err = 0 then 1 else s.err, events := rest }) := by
  obtain ⟨e, he⟩ := hd
  rw [step_refused_access s r rest e h he, rejectCode_of_decodeAccess r e he, recordErr_eq]
  cases r <;> simp only [refusedData, respond, retire, h, List.tail_cons, ErrCode.code]

/-- Settles O5: whatever BUSY is, since a refused access never reaches the stall. -/
theorem refusedAccessOnlyRecordsAddressError : Obligations.RefusedAccessOnlyRecordsAddressError := by
  intro s off be v rest
  exact ⟨fun hev href => step_addressError s _ rest hev (decodeAccess_read_refused href),
    fun hev href => step_addressError s _ rest hev (decodeAccess_write_refused v href)⟩

end Sys2Proof.Machine
end

section
/-! PROOFS. The writes of MODE, OUTLEN and LANE[i], made twice (R63). -/

namespace Sys2Proof.Machine

/-- With BUSY = 0 every instruction completes. -/
theorem exec_ready (i : Instr) (s : State) (hb : s.busy = false) : exec i s = .next (retire (instrEffect i s)) := by
  rw [exec_eq, hb, Bool.and_false]
  rfl

theorem exec_wrMode (v : Word) (s : State) :
    exec (.wrMode v) s = .next { s with func := v.extractLsb' 0 3, events := s.events.tail } := rfl

theorem exec_wrOutlen (v : Word) (s : State) : exec (.wrOutlen v) s = .next { s with outlen := v, events := s.events.tail } := rfl

/-- A LANE write that is not held stores its word (R133). -/
theorem exec_wrLane (k : BitVec 5) (v : Word) (s : State) (hk : k.toNat < 25) (hb : s.busy = false) :
    exec (.wrLane k v) s = .next { s with lanes := s.lanes.set k.toNat v, events := s.events.tail } := by
  have hlane : laneExists k = true := decide_eq_true (Nat.le_of_lt_succ hk)
  rw [exec_ready _ s hb]
  simp only [instrEffect, hlane, if_true, setLane_of_lt _ k v hk, retire]

/-- Settles O13: the second write stores over the first, MODE and OUTLEN in any state, LANE[i] with BUSY = 0. -/
theorem registerWritesAreIdempotent : Obligations.RegisterWritesAreIdempotent := by
  rintro i s t hready ⟨v, rfl | rfl | ⟨k, rfl, hk⟩⟩ hfirst
  · rw [exec_wrMode] at hfirst
    cases hfirst
    rw [exec_wrMode]
  · rw [exec_wrOutlen] at hfirst
    cases hfirst
    rw [exec_wrOutlen]
  · have hb : s.busy = false := hready rfl
    rw [exec_wrLane k v s hk hb] at hfirst
    cases hfirst
    rw [exec_wrLane k v _ hk (by exact hb), Vector.set_set]

end Sys2Proof.Machine
end

section
/-! PROOFS. The stall: a held access and the rounds left of the permutation (R57, R95, R154). -/

namespace Sys2Proof.Machine

/-- The engine step of a busy block, as one update (R95). -/
theorem engineStep_of_busy (s : State) (hb : s.busy = true) :
    engineStep s = { s with
      lanes := keccakRound s.lanes s.rnd
      busy := !(decide (s.rnd = 23))
      rnd := if s.rnd = 23 then 0 else s.rnd + 1 } := by
  by_cases hlast : s.rnd = 23 <;> simp [engineStep, hb, hlast]

/-- Settles O26: a well-formed instruction that stalls waits, and its transition is the engine step. -/
theorem stallingAccessIsHeldWhileBusy : Obligations.StallingAccessIsHeldWhileBusy := by
  intro s i hwf hstalls hb
  have hwaits : waits i = true := (waits_of_wf i hwf).trans hstalls
  rw [exec_eq, hwaits, hb, ← engineStep_of_busy s hb]
  rfl

/-- The block after the rounds left of its permutation, those of index RND to 23. -/
def finishPerm (s : State) : State :=
  { s with
    lanes := (List.range' s.rnd.toNat (24 - s.rnd.toNat)).foldl (fun L k => keccakRound L (BitVec.ofNat 5 k)) s.lanes
    busy := false
    rnd := 0 }

/-- At index 23 one round is left. -/
theorem finishPerm_last (s : State) (h : s.rnd = 23) : finishPerm s = engineStep s := by
  simp [finishPerm, engineStep, h]

/-- Before index 23 the first round left is the engine's next. -/
theorem finishPerm_engineStep (s : State) (h : s.rnd.toNat < 23) : finishPerm (engineStep s) = finishPerm s := by
  have hne : s.rnd ≠ 23 := by bv_omega
  have hnext : (s.rnd + 1).toNat = s.rnd.toNat + 1 := by bv_omega
  have hleft : 24 - s.rnd.toNat = (24 - (s.rnd.toNat + 1)) + 1 := by omega
  simp only [finishPerm, engineStep, if_neg hne, hnext]
  rw [hleft, List.range'_succ, List.foldl_cons, BitVec.ofNat_toNat, BitVec.setWidth_eq]

/-- Where every step of a busy block with this list is the engine's, the rounds left of the permutation run to its end (R95). -/
theorem run_finishPerm (es : List Event)
    (hstep : ∀ u : State, u.busy = true → u.events = es → step u = .next (engineStep u))
    (s : State) (hb : s.busy = true) (hrnd : s.rnd.toNat ≤ 23) (hes : s.events = es) :
    Host.Core.run Sys2Proof.core (24 - s.rnd.toNat) s = .next (finishPerm s) := by
  induction hn : 23 - s.rnd.toNat generalizing s with
  | zero =>
    have hlast : s.rnd = 23 := by bv_omega
    rw [show 24 - s.rnd.toNat = 0 + 1 by omega, run_succ 0 s _ (hstep s hb hes), run_zero, finishPerm_last s hlast]
  | succ n ih =>
    have hne : s.rnd ≠ 23 := by bv_omega
    have hnext : (engineStep s).rnd.toNat = s.rnd.toNat + 1 := by
      rw [engineStep_rnd, if_neg hne]
      bv_omega
    have hbusy : (engineStep s).busy = true := by rw [engineStep_busy, if_neg hne, hb]
    have hrest := ih (engineStep s) hbusy (by omega) hes (by omega)
    rw [show 24 - s.rnd.toNat = (24 - (engineStep s).rnd.toNat) + 1 by omega, run_succ _ s _ (hstep s hb hes), hrest,
      finishPerm_engineStep s (by omega)]

/-- The step at an access that decodes is its instruction's transition (R120). -/
theorem step_decoded_access (s : State) (r : Request) (rest : List Event) (i : Instr) (h : s.events = .access r :: rest)
    (hd : decodeAccess r = .ok i) : step s = exec i s := by
  simp only [step, h, hd]

/-- Settles O27: the rounds left run while the access is held, and then it completes as any instruction does with BUSY = 0. -/
theorem stalledAccessCompletesAfterTheRounds : Obligations.StalledAccessCompletesAfterTheRounds := by
  intro s r rest i hb hrnd hev hd hstalls
  have hwaits : waits i = true := (waits_of_wf i (decodeAccess_wf r i hd)).trans hstalls
  have hheld (u : State) (hub : u.busy = true) (hue : u.events = .access r :: rest) : step u = .next (engineStep u) :=
    step_busy_held u r rest i hue hd hwaits hub
  have hperform : step (finishPerm s) = exec i (finishPerm s) := step_decoded_access _ r rest i hev hd
  have hnext : exec i (finishPerm s) = .next (retire (instrEffect i (finishPerm s))) := exec_ready i _ rfl
  refine ⟨finishPerm s, retire (instrEffect i (finishPerm s)), run_finishPerm _ hheld s hb hrnd hev, rfl, hperform,
    hperform.trans hnext, ?_⟩
  rw [retire_events, instrEffect_events, show (finishPerm s).events = .access r :: rest from hev, List.tail_cons]

end Sys2Proof.Machine
end

section
/-! PROOFS. An engine step and an access that does not stall, in either order (R67, R152). -/

namespace Sys2Proof.Machine

/-- The effect neither reads nor writes what the engine moves (lanes, BUSY, RND), nor the host's list. -/
def EngineBlind (act : State → State) : Prop :=
  ∀ (s : State) (lanes : Lanes) (busy : Bool) (rnd : BitVec 5) (events : List Event),
    act { s with lanes := lanes, busy := busy, rnd := rnd, events := events } =
      { act s with lanes := lanes, busy := busy, rnd := rnd, events := events }

theorem respond_engineBlind (v : Word) : EngineBlind (respond v) := fun _ _ _ _ _ => rfl

theorem recordErr_engineBlind (c : ErrCode) : EngineBlind (recordErr c) := by
  intro s lanes busy rnd events
  simp only [recordErr_eq]

theorem refusedData_engineBlind (r : Request) (c : ErrCode) : EngineBlind fun s => refusedData r (recordErr c s) := by
  intro s lanes busy rnd events
  cases r with
  | read off be => exact congrArg (respond 0) (recordErr_engineBlind c s lanes busy rnd events)
  | write off be v => exact recordErr_engineBlind c s lanes busy rnd events

/-- Of the accesses that do not stall, only the read of STATUS looks at what the engine moves. -/
theorem instrEffect_engineBlind (i : Instr) (h : i.stalls = false) (hne : i ≠ .rdStatus) : EngineBlind (instrEffect i) := by
  intro s lanes busy rnd events
  cases i with
  | rdId | rdMode | wrMode | rdOutlen | wrOutlen | rdRemain => rfl
  | rdStatus => exact absurd rfl hne
  | nop | init | final | permute | round | theta | rho | pi | chi | iota | clrerr | sreset | wrCmd | wrDin | rdDout | rdLane
  | wrLane => cases h

section
variable {act : State → State} (h : EngineBlind act) (s : State)
include h

theorem EngineBlind.lanes : (act s).lanes = s.lanes := (congrArg State.lanes (h s s.lanes s.busy s.rnd s.events) :)

theorem EngineBlind.busy : (act s).busy = s.busy := (congrArg State.busy (h s s.lanes s.busy s.rnd s.events) :)

theorem EngineBlind.rnd : (act s).rnd = s.rnd := (congrArg State.rnd (h s s.lanes s.busy s.rnd s.events) :)

theorem EngineBlind.events : (act s).events = s.events := (congrArg State.events (h s s.lanes s.busy s.rnd s.events) :)

theorem EngineBlind.withEvents (es : List Event) : act { s with events := es } = { act s with events := es } := by
  refine (h s s.lanes s.busy s.rnd es).trans ?_
  rw [← h.lanes s, ← h.busy s, ← h.rnd s]

/-- Such an effect commutes with the engine step (R95). -/
theorem EngineBlind.engineStep_comm : act (engineStep s) = engineStep (act s) := by
  unfold engineStep
  rw [h s, h.lanes, h.busy, h.rnd, ← h.events s]

theorem EngineBlind.engineTurn_comm : act (engineTurn s) = engineTurn (act s) := by
  unfold engineTurn
  rw [h.busy]
  split
  · exact h.engineStep_comm s
  · rfl

/-- The engine's turn, then an access with such an effect. -/
theorem EngineBlind.run_turn_access (r : Request) (rest : List Event)
    (hstep : step { engineTurn s with events := .access r :: rest } =
      .next (retire (act { engineTurn s with events := .access r :: rest }))) :
    Host.Core.run Sys2Proof.core 2 { s with events := .engine :: .access r :: rest } =
      .next { act (engineTurn s) with events := rest } := by
  rw [run_succ 1 _ _ (step_engine _ _ rfl), engineTurn_withEvents]
  refine (run_succ 0 _ _ hstep).trans ?_
  rw [run_zero, h.withEvents]
  rfl

/-- An access with such an effect, then the engine's turn: the same state. -/
theorem EngineBlind.run_access_turn (r : Request) (rest : List Event)
    (hstep : step { s with events := .access r :: .engine :: rest } =
      .next (retire (act { s with events := .access r :: .engine :: rest }))) :
    Host.Core.run Sys2Proof.core 2 { s with events := .access r :: .engine :: rest } =
      .next { act (engineTurn s) with events := rest } := by
  rw [h.withEvents] at hstep
  rw [run_succ 1 _ _ hstep, run_succ 0 _ _ (step_engine _ rest rfl), run_zero, h.engineTurn_comm]
  exact congrArg (fun t => Host.Outcome.next (retire t)) (engineTurn_withEvents (act s) (.engine :: rest))

end

/-- The step of an access that does not stall and is no STATUS read, or is refused, has an effect apart from the engine. -/
theorem exists_engineBlind_step (r : Request) (hr : ∀ i, decodeAccess r = .ok i → i.stalls = false)
    (hne : decodeAccess r ≠ .ok .rdStatus) :
    ∃ act, EngineBlind act ∧ ∀ u es, u.events = .access r :: es → step u = .next (retire (act u)) := by
  cases hd : decodeAccess r with
  | error e => exact ⟨_, refusedData_engineBlind r (rejectCode e), fun u es hu => step_refused_access u r es e hu hd⟩
  | ok i =>
    have hi : i ≠ .rdStatus := by
      rintro rfl
      exact hne hd
    refine ⟨_, instrEffect_engineBlind i (hr i hd) hi, fun u es hu => ?_⟩
    rw [step_decoded_access u r es i hu hd, exec_unstalled i u (hr i hd)]

/-- The fields BUSY (bit 0) and RND (bits 12:8) are masked out of the STATUS word (R42). -/
theorem statusWord_masked (s : State) (lanes : Lanes) (busy : Bool) (rnd : BitVec 5) :
    statusWord { s with lanes := lanes, busy := busy, rnd := rnd } &&& 0xFFFFFFFFFFFFE0FE =
      statusWord s &&& 0xFFFFFFFFFFFFE0FE := by
  have hbusy (b : Bool) : (BitVec.ofBool b).setWidth 64 &&& 0xFFFFFFFFFFFFE0FE#64 = 0 := by
    cases b <;> rfl
  have hrnd (k : BitVec 5) : k.setWidth 64 <<< 8 &&& 0xFFFFFFFFFFFFE0FE#64 = 0 := by
    revert k
    decide
  simp only [statusWord, BitVec.and_or_distrib_right, BitVec.ofNat_eq_ofNat, hbusy, hrnd]

theorem statusWord_engineStep_masked (s : State) :
    statusWord (engineStep s) &&& 0xFFFFFFFFFFFFE0FE = statusWord s &&& 0xFFFFFFFFFFFFE0FE :=
  statusWord_masked s ..

theorem statusWord_engineTurn_masked (s : State) :
    statusWord (engineTurn s) &&& 0xFFFFFFFFFFFFE0FE = statusWord s &&& 0xFFFFFFFFFFFFE0FE := by
  unfold engineTurn
  split
  · exact statusWord_engineStep_masked s
  · rfl

/-- An instruction that does not stall, before and after an engine step. -/
theorem exec_engineStep_comm (s : State) (i : Instr) (h : i.stalls = false) :
    ∃ t u, exec i s = .next t ∧ exec i (engineStep s) = .next u ∧
      (i ≠ .rdStatus → u = engineStep t) ∧
      (i = .rdStatus → ∃ v w, t.reads = s.reads ++ [v] ∧ u = { engineStep t with reads := s.reads ++ [w] } ∧
        v &&& 0xFFFFFFFFFFFFE0FE = w &&& 0xFFFFFFFFFFFFE0FE) := by
  refine ⟨_, _, exec_unstalled i s h, exec_unstalled i (engineStep s) h, fun hne => ?_, ?_⟩
  · rw [(instrEffect_engineBlind i h hne).engineStep_comm]
    rfl
  · rintro rfl
    exact ⟨statusWord s, statusWord (engineStep s), rfl, rfl, (statusWord_engineStep_masked s).symm⟩

/-- A refused access, before and after an engine step. -/
theorem step_refused_engineStep_comm (s : State) (r : Request) (rest : List Event) (e : Reject)
    (hev : s.events = .access r :: rest) (hd : decodeAccess r = .error e) :
    ∃ t, step s = .next t ∧ step (engineStep s) = .next (engineStep t) := by
  refine ⟨_, step_refused_access s r rest e hev hd, ?_⟩
  rw [step_refused_access (engineStep s) r rest e hev hd,
    (refusedData_engineBlind r (rejectCode e)).engineStep_comm]
  rfl

/-- The runs of an engine turn and an access that does not stall, in either order. -/
theorem run_turn_access_comm (s : State) (r : Request) (rest : List Event)
    (hr : ∀ i, decodeAccess r = .ok i → i.stalls = false) :
    ∃ t u, Host.Core.run Sys2Proof.core 2 { s with events := .engine :: .access r :: rest } = .next t ∧
      Host.Core.run Sys2Proof.core 2 { s with events := .access r :: .engine :: rest } = .next u ∧
      t.events = rest ∧ u.events = rest ∧
      (decodeAccess r ≠ .ok .rdStatus → t = u) ∧
      (decodeAccess r = .ok .rdStatus → ∃ v w, t.reads = s.reads ++ [v] ∧ u.reads = s.reads ++ [w] ∧
        t = { u with reads := t.reads } ∧ v &&& 0xFFFFFFFFFFFFE0FE = w &&& 0xFFFFFFFFFFFFE0FE) := by
  by_cases hstatus : decodeAccess r = .ok .rdStatus
  · have hturn := (respond_engineBlind (statusWord (engineTurn s))).run_turn_access s r rest
      (step_decoded_access _ r rest _ rfl hstatus)
    have haccess := (respond_engineBlind (statusWord s)).run_access_turn s r rest
      (step_decoded_access _ r (.engine :: rest) _ rfl hstatus)
    refine ⟨_, _, hturn, haccess, rfl, rfl, absurd hstatus, fun _ => ?_⟩
    exact ⟨statusWord (engineTurn s), statusWord s, by simp, by simp, rfl, statusWord_engineTurn_masked s⟩
  · obtain ⟨act, hact, hstep⟩ := exists_engineBlind_step r hr hstatus
    exact ⟨_, _, hact.run_turn_access s r rest (hstep _ rest rfl), hact.run_access_turn s r rest (hstep _ _ rfl), rfl, rfl,
      fun _ => rfl, fun h => absurd h hstatus⟩

/-- Settles O28: the three parts, each from an effect apart from the engine. -/
theorem engineStepsCommuteWithUnstalledAccesses : Obligations.EngineStepsCommuteWithUnstalledAccesses :=
  ⟨fun s i _ h => exec_engineStep_comm s i h, fun s r rest e hev hd _ => step_refused_engineStep_comm s r rest e hev hd,
    run_turn_access_comm⟩

end Sys2Proof.Machine
end

section
/-! PROOFS. Decode and encode agree, in both directions (R53, R73 to R80). -/

namespace Sys2Proof

/-! ### From the instruction to its encoding and back -/

@[simp] theorem decodeC0_wordC0 (op : BitVec 5) (i : Instr) : decodeC0 (wordC0 op) i = .ok i := if_pos (c0Clear_wordC0 op)

theorem decodeCR_wordCR (op ir : BitVec 5) (i : BitVec 5 → Instr) (h : ir.toNat ≤ 23) :
    decodeCR (wordCR op ir) i = .ok (i ir) := by
  simp only [decodeCR, crClear_wordCR, irField_wordCR, if_true, if_pos h]

/-- Every register stands at a multiple of 8, so a whole access of it passes R54. -/
theorem wholeAligned_offset (r : Reg) : wholeAligned r.offset 0xFF = true := by
  rw [wholeAligned_iff]
  cases r with
  | lane i =>
    refine ⟨?_, rfl⟩
    rw [Reg.offset, BitVec.toNat_ofNat]
    omega
  | _ => exact ⟨rfl, rfl⟩

/-- Settles O7: a command word by its fields, an access by the register at its offset. -/
theorem decodeOfEncodeIsTheInstruction : Obligations.DecodeOfEncodeIsTheInstruction := by
  intro i hwf
  cases i with
  | nop | init | permute | theta | rho | pi | chi | clrerr | sreset =>
    simp only [encode, decode, decodeCommand, opField_wordC0, decodeC0_wordC0]
    rfl
  | round ir | iota ir =>
    have hir : ir.toNat ≤ 23 := of_decide_eq_true hwf
    simp only [encode, decode, decodeCommand, opField_wordCR, decodeCR_wordCR _ ir _ hir]
    rfl
  | final nb tail =>
    simp only [encode, decode, decodeCommand, opField_wordCF, nbField_wordCF, tailField_wordCF]
    rfl
  | rdLane k | wrLane k v =>
    have hreg : regAt (Reg.offset (.lane k)) = some (.lane k) := regAt_offset_lane k (of_decide_eq_true hwf)
    simp only [encode, decode, readOf, writeOf, decodeAccess, wholeAligned_offset, hreg, if_true]
  | rdId | wrCmd | rdStatus | rdMode | wrMode | rdOutlen | wrOutlen | wrDin | rdDout | rdRemain => rfl

/-- Settles O6: each word and key is what its instruction encodes to. -/
theorem sampleWordsDecode : Obligations.SampleWordsDecode :=
  ⟨decodeOfEncodeIsTheInstruction .theta rfl, decodeOfEncodeIsTheInstruction (.iota 23) rfl,
    decodeOfEncodeIsTheInstruction (.final 3 0x636261) rfl, decodeOfEncodeIsTheInstruction .sreset rfl,
    decodeOfEncodeIsTheInstruction .rdStatus rfl, decodeOfEncodeIsTheInstruction (.wrDin 0x0706050403020100) rfl,
    decodeOfEncodeIsTheInstruction (.wrLane 24 0xDEADBEEF) rfl⟩

/-! ### From the encoding to its instruction and back -/

/-- The bits of a field that is 0 are 0. -/
theorem getLsbD_of_extract_eq_zero {v : Word} {k n : Nat} (h : v.extractLsb' k n = 0) {j : Nat} (hk : k ≤ j) (hn : j < k + n) :
    v.getLsbD j = false := by
  have hbit : (v.extractLsb' k n).getLsbD (j - k) = false := by simp [h]
  simpa [show j - k < n by omega, show k + (j - k) = j by omega] using hbit

theorem c0Clear_iff (v : Word) : c0Clear v = true ↔ v.extractLsb' 5 59 = 0 := decide_eq_true_iff

theorem crClear_iff (v : Word) : crClear v = true ↔ v.extractLsb' 5 3 = 0 ∧ v.extractLsb' 13 51 = 0 := by
  rw [crClear, Bool.and_eq_true, decide_eq_true_iff, decide_eq_true_iff, nbField]

/-- A C0 word with clear reserved bits is its opcode. -/
theorem wordC0_opField (v : Word) (h : c0Clear v = true) : wordC0 (opField v) = v := by
  refine BitVec.eq_of_getLsbD_eq fun j hj => ?_
  by_cases hop : j < 5
  · simp [wordC0, opField, hj, hop]
  · simp [wordC0, opField, hop, getLsbD_of_extract_eq_zero ((c0Clear_iff v).mp h) (by omega : 5 ≤ j) (by omega)]

/-- A CR word with clear reserved bits is its opcode and its index. -/
theorem wordCR_fields (v : Word) (h : crClear v = true) : wordCR (opField v) (irField v) = v := by
  obtain ⟨hlow, hhigh⟩ := (crClear_iff v).mp h
  refine BitVec.eq_of_getLsbD_eq fun j hj => ?_
  by_cases hop : j < 5
  · simp [wordCR, opField, irField, hj, hop, show j < 8 by omega]
  by_cases hgap : j < 8
  · simp [wordCR, opField, irField, hop, hgap, getLsbD_of_extract_eq_zero hlow (by omega : 5 ≤ j) (by omega)]
  by_cases hir : j < 13
  · simp [wordCR, opField, irField, hj, hop, hgap, show j - 8 < 5 by omega, show 8 + (j - 8) = j by omega]
  · simp [wordCR, opField, irField, hop, show ¬ j - 8 < 5 by omega,
      getLsbD_of_extract_eq_zero hhigh (by omega : 13 ≤ j) (by omega)]

/-- A FINAL word has no reserved bit (R110): it is its opcode, NB and TAIL. -/
theorem wordCF_fields (v : Word) (h : opField v = 2) : wordCF (nbField v) (tailField v) = v := by
  have hfields : wordCF (nbField v) (tailField v) =
      (opField v).setWidth 64 ||| (nbField v).setWidth 64 <<< 5 ||| (tailField v).setWidth 64 <<< 8 := by
    rw [h]
    rfl
  rw [hfields]
  refine BitVec.eq_of_getLsbD_eq fun j hj => ?_
  by_cases hop : j < 5
  · simp [opField, nbField, tailField, hj, hop, show j < 8 by omega]
  by_cases hnb : j < 8
  · simp [opField, nbField, tailField, hj, hop, hnb, show j - 5 < 3 by omega, show 5 + (j - 5) = j by omega]
  · simp [opField, nbField, tailField, hj, hop, hnb, show ¬ j - 5 < 3 by omega, show j - 8 < 56 by omega,
      show 8 + (j - 8) = j by omega]

theorem ofNat_of_opField {v : Word} {n : Nat} (hop : (opField v).toNat = n) : BitVec.ofNat 5 n = opField v := by
  rw [← hop, BitVec.ofNat_toNat, BitVec.setWidth_eq]

/-- The word of a C0 command is the only one that decodes to it. -/
theorem wordC0_of_decodeC0 {v : Word} {i j : Instr} {n : Nat} (hop : (opField v).toNat = n) (h : decodeC0 v i = .ok j) :
    j = i ∧ wordC0 (BitVec.ofNat 5 n) = v := by
  obtain ⟨hj, hclear⟩ := decodeC0_cases v i j h
  exact ⟨hj, ofNat_of_opField hop ▸ wordC0_opField v hclear⟩

/-- The word of a CR command and its index is the only one that decodes to it. -/
theorem wordCR_of_decodeCR {v : Word} {i : BitVec 5 → Instr} {j : Instr} {n : Nat} (hop : (opField v).toNat = n)
    (h : decodeCR v i = .ok j) : j = i (irField v) ∧ wordCR (BitVec.ofNat 5 n) (irField v) = v := by
  obtain ⟨hj, hclear, -⟩ := decodeCR_cases v i j h
  exact ⟨hj, ofNat_of_opField hop ▸ wordCR_fields v hclear⟩

theorem encode_of_decodeCommand (v : Word) (i : Instr) (h : decodeCommand v = .ok i) : encode i = .command v := by
  unfold decodeCommand at h
  split at h
  case h_3 hop =>
    cases h
    exact congrArg Code.command (wordCF_fields v (BitVec.eq_of_toNat_eq hop))
  case h_5 hop | h_10 hop =>
    obtain ⟨rfl, hword⟩ := wordCR_of_decodeCR hop h
    exact congrArg Code.command hword
  case h_13 => cases h
  all_goals
    rename_i hop
    obtain ⟨rfl, hword⟩ := wordC0_of_decodeC0 hop h
    exact congrArg Code.command hword

/-- The register at an aligned offset has that offset and no other (R53). -/
theorem offset_of_regAt {off : BitVec 9} {r : Reg} (hal : off.toNat % 8 = 0) (h : regAt off = some r) : r.offset = off := by
  have hlt := off.isLt
  apply BitVec.eq_of_toNat_eq
  unfold regAt at h
  split at h
  case h_9 =>
    split at h
    · cases h
      simp only [Reg.offset, BitVec.toNat_ofNat]
      omega
    · cases h
  all_goals
    cases h
    simp only [Reg.offset, BitVec.ofNat_eq_ofNat, BitVec.toNat_ofNat]
    omega

theorem encode_of_decodeAccess (r : Request) (i : Instr) (h : decodeAccess r = .ok i) : encode i = .access r := by
  cases r with
  | read off be | write off be v =>
    simp only [decodeAccess] at h
    split at h
    case isTrue hwhole =>
      obtain ⟨hal, rfl⟩ := (wholeAligned_iff off be).mp hwhole
      split at h <;> cases h
      all_goals
        rename_i hreg
        simp only [encode, readOf, writeOf, offset_of_regAt hal hreg]
    case isFalse => cases h

/-- Settles O8: a word or a transaction is put together again from the fields it decodes by. -/
theorem encodeOfDecodeIsTheCode : Obligations.EncodeOfDecodeIsTheCode := by
  intro c i h
  cases c with
  | command v => exact ⟨(decodeCommand_isCommand v i h).2, encode_of_decodeCommand v i h⟩
  | access r => exact ⟨decodeAccess_wf r i h, encode_of_decodeAccess r i h⟩

end Sys2Proof
end

section
/-! PROOFS. A write of CMD: the command its word carries, or the error of a word that carries none (R76, R79, R80, R121). -/

namespace Sys2Proof

theorem decodeCommand_of_reserved (v : Word) (h : 11 < (opField v).toNat) : decodeCommand v = .error .reservedOpcode := by
  unfold decodeCommand
  split
  case h_13 => rfl
  all_goals omega

/-- The opcodes of format CR are 4 and 9 (R77). -/
theorem decodeCommand_of_cr (v : Word) (h : (opField v).toNat = 4 ∨ (opField v).toNat = 9) :
    ∃ i, decodeCommand v = decodeCR v i := by
  obtain h4 | h9 := h
  · exact ⟨.round, by simp only [decodeCommand, h4]⟩
  · exact ⟨.iota, by simp only [decodeCommand, h9]⟩

/-- Every opcode up to 11 that is neither of format CR nor FINAL is of format C0 (R77). -/
theorem decodeCommand_of_c0 (v : Word) (h : (opField v).toNat ≤ 11)
    (hcr : ¬ ((opField v).toNat = 4 ∨ (opField v).toNat = 9)) (hcf : (opField v).toNat ≠ 2) :
    ∃ i, decodeCommand v = decodeC0 v i := by
  unfold decodeCommand
  split
  case h_3 | h_5 | h_10 => omega
  case h_13 =>
    simp only [imp_false] at *
    omega
  all_goals exact ⟨_, rfl⟩

/-- What makes a command word record E_CMD (R80). -/
def BadCommandWord (v : Word) : Prop :=
  11 < (opField v).toNat ∨
  (((opField v).toNat = 4 ∨ (opField v).toNat = 9) ∧ (v.extractLsb' 5 3 ≠ 0 ∨ v.extractLsb' 13 51 ≠ 0)) ∨
  ((opField v).toNat ≤ 11 ∧ ¬ ((opField v).toNat = 4 ∨ (opField v).toNat = 9) ∧ (opField v).toNat ≠ 2 ∧ v.extractLsb' 5 59 ≠ 0)

theorem decodeCommand_bad (v : Word) (h : BadCommandWord v) : ∃ e, decodeCommand v = .error e ∧ Machine.rejectCode e = .cmd := by
  obtain hop | ⟨hcr, hbits⟩ | ⟨hop, hcr, hcf, hbits⟩ := h
  · exact ⟨_, decodeCommand_of_reserved v hop, rfl⟩
  · obtain ⟨i, hi⟩ := decodeCommand_of_cr v hcr
    have hclear : ¬ crClear v = true := fun hc => by
      obtain ⟨hlow, hhigh⟩ := (crClear_iff v).mp hc
      exact hbits.elim (· hlow) (· hhigh)
    exact ⟨_, hi.trans (if_neg hclear), rfl⟩
  · obtain ⟨i, hi⟩ := decodeCommand_of_c0 v hop hcr hcf
    exact ⟨_, hi.trans (if_neg (mt (c0Clear_iff v).mp hbits)), rfl⟩

/-- A ROUND or IOTA word without such a fault, and with an index above 23 (R79). -/
theorem decodeCommand_roundIndex (v : Word) (hok : ¬ BadCommandWord v) (hcr : (opField v).toNat = 4 ∨ (opField v).toNat = 9)
    (hir : 24 ≤ (irField v).toNat) : decodeCommand v = .error .roundIndex := by
  obtain ⟨i, hi⟩ := decodeCommand_of_cr v hcr
  have hclear : crClear v = true := by
    rw [crClear_iff]
    by_contra hbits
    exact hok (.inr (.inl ⟨hcr, not_and_or.mp hbits⟩))
  rw [hi, decodeCR, if_pos hclear, if_neg (by omega)]

end Sys2Proof

namespace Sys2Proof.Machine

/-- The write of a word that is no command records its error (R121, R147). -/
theorem exec_wrCmd_error (s : State) (v : Word) (e : Reject) (hb : s.busy = false) (h : decodeCommand v = .error e) :
    exec (.wrCmd v) s =
      .next { s with err := if s.err = 0 then (rejectCode e).code else s.err, events := s.events.tail } := by
  rw [exec_ready _ s hb]
  simp only [instrEffect, h, recordErr_eq, retire]

/-- Settles O4: such a word does not decode, and its rejection names the error. -/
theorem illegalCommandWordOnlyRecordsItsError : Obligations.IllegalCommandWordOnlyRecordsItsError := by
  intro s v hb op cr badCmd
  refine ⟨fun hbad => ?_, fun hok hcr hir => exec_wrCmd_error s v _ hb (decodeCommand_roundIndex v hok hcr hir)⟩
  obtain ⟨e, he, hcode⟩ := decodeCommand_bad v hbad
  rw [exec_wrCmd_error s v e hb he, hcode]
  rfl

/-- A write of CMD runs as the command its word carries (R121). -/
theorem exec_wrCmd_command (s : State) (v : Word) (i : Instr) (h : decodeCommand v = .ok i) : exec (.wrCmd v) s = exec i s := by
  have hcommand : i.isCommand = true := (decodeCommand_isCommand v i h).1
  have hperform : exec (.wrCmd v) s = performCommand i s := by simp only [exec, execWrCmd, h]
  rw [hperform]
  cases i with
  | nop | init | final | permute | round | theta | rho | pi | chi | iota | clrerr | sreset => rfl
  | rdId | wrCmd | rdStatus | rdMode | wrMode | rdOutlen | wrOutlen | wrDin | rdDout | rdRemain | rdLane | wrLane => cases hcommand

/-- The step at an encoded instruction's request is the instruction, whichever space it is encoded in. -/
theorem step_code_request (s : State) (c : Code) (rest : List Event) (i : Instr) (hev : s.events = .access c.request :: rest)
    (h : decode c = .ok i) : step s = exec i s := by
  cases c with
  | access r => exact step_decoded_access s r rest i hev h
  | command v => exact (step_decoded_access s _ rest (.wrCmd v) hev rfl).trans (exec_wrCmd_command s v i h)

/-- Settles O2. -/
theorem tableWordRunsItsInstruction : Obligations.TableWordRunsItsInstruction := by
  intro s nbits w i h
  have hdecode : decode (codeOfTableWord nbits w) = .ok i := by
    unfold decodeTableWord at h
    cases hd : decode (codeOfTableWord nbits w) with
    | ok j => rw [hd] at h; cases h; rfl
    | error e => rw [hd] at h; cases h
  exact step_code_request _ _ s.events i rfl hdecode

end Sys2Proof.Machine
end

section
/-! PROOFS. The host's loop `poll` (R83): what one turn of it does, and where it ends. -/

namespace Sys2Proof.Machine

/-- The block after one turn of `poll`: `g` engine turns, and STATUS read. -/
def polled (g : Nat) (s : State) : State :=
  respond (statusWord (Nat.iterate engineTurn g s)) { Nat.iterate engineTurn g s with events := s.events }

theorem engineTurns_withEvents (g : Nat) (s : State) (es : List Event) :
    Nat.iterate engineTurn g { s with events := es } = { Nat.iterate engineTurn g s with events := es } := by
  induction g generalizing s with
  | zero => rfl
  | succ g ih => simp only [Function.iterate_succ_apply, engineTurn_withEvents, ih]

@[simp] theorem engineTurns_reads (g : Nat) (s : State) : (Nat.iterate engineTurn g s).reads = s.reads := by
  induction g generalizing s with
  | zero => rfl
  | succ g ih => rw [Function.iterate_succ_apply, ih, engineTurn_reads]

theorem polled_withEvents (g : Nat) (s : State) (es : List Event) :
    polled g { s with events := es } = { polled g s with events := es } := by
  simp only [polled, engineTurns_withEvents]
  rfl

theorem polled_reads (g : Nat) (s : State) : (polled g s).reads = s.reads ++ [statusWord (Nat.iterate engineTurn g s)] := by
  rw [polled, respond_reads, engineTurns_reads]

/-- Bit 0 of STATUS is BUSY (R42). -/
theorem statusWord_busy (s : State) : (statusWord s).getLsbD 0 = s.busy := by
  obtain ⟨hbusy, -⟩ := statusWord_fields s
  exact getLsbD_of_extract hbusy

/-- The value a turn reads shows the BUSY that the turn leaves. -/
theorem pollExit_polled (g : Nat) (s : State) : pollExit (lastRead (polled g s)) = !(polled g s).busy := by
  rw [pollExit, lastRead, polled_reads, List.getLastD_concat, statusWord_busy]
  rfl

/-- One turn of the loop: it ends if the turn leaves BUSY = 0, and else goes on. -/
theorem poll_cons (g : Nat) (gaps : List Nat) (s : State) :
    poll (g :: gaps) s = if (polled g s).busy then poll gaps (polled g s) else some (polled g s) := by
  have hturn : pollTurn g s = .next (polled g s) := pollTurn_eq g s
  rw [poll, hturn]
  simp only [pollExit_polled]
  cases (polled g s).busy <;> rfl

/-- The turn as a run of the machine, whatever the host does after it. -/
theorem run_pollTurn (g : Nat) (s : State) (es : List Event) :
    Host.Core.run Sys2Proof.core (g + 1) { s with events := pollTurns [g] ++ es } = .next { polled g s with events := es } := by
  have hturn : pollTurn g { s with events := es } = .next (polled g { s with events := es }) := pollTurn_eq g _
  rw [polled_withEvents] at hturn
  exact hturn

theorem pollTurns_cons (g : Nat) (gaps : List Nat) : pollTurns (g :: gaps) = pollTurns [g] ++ pollTurns gaps := by
  simp [pollTurns]

/-- Wherever the loop ends, it ends at the first value with bit 0 clear, by a run of its own turns alone. -/
theorem poll_ends (s t : State) (gaps : List Nat) (h : poll gaps s = some t) :
    (∃ (vs : List Word) (v : Word), t.reads = s.reads ++ vs ++ [v] ∧ (∀ u ∈ vs, u.getLsbD 0 = true) ∧ v.getLsbD 0 = false ∧
      vs.length < gaps.length ∧
      ∃ k, Host.Core.run Sys2Proof.core k { s with events := pollTurns (gaps.take (vs.length + 1)) ++ s.events } = .next t) ∧
    t.busy = false ∧ t.events = s.events := by
  induction gaps generalizing s with
  | nil => cases h
  | cons g gaps ih =>
    rw [poll_cons] at h
    have hbit : (statusWord (Nat.iterate engineTurn g s)).getLsbD 0 = (polled g s).busy := statusWord_busy _
    split at h
    case isTrue hbusy =>
      obtain ⟨⟨vs, v, hreads, hset, hclear, hlength, k, hrun⟩, hready, hevents⟩ := ih (polled g s) h
      refine ⟨⟨_ :: vs, v, ?_, List.forall_mem_cons.mpr ⟨hbit.trans hbusy, hset⟩, hclear, Nat.succ_lt_succ hlength, g + 1 + k, ?_⟩,
        hready, hevents⟩
      · rw [hreads, polled_reads, List.append_assoc s.reads, List.singleton_append]
      · rw [List.length_cons, List.take_succ_cons, pollTurns_cons, List.append_assoc]
        exact (run_add _ _ _ _ (run_pollTurn g s _)).trans hrun
    case isFalse hbusy =>
      cases h
      rw [Bool.not_eq_true] at hbusy
      exact ⟨⟨[], _, by rw [polled_reads, List.append_nil], by simp, hbit.trans hbusy, Nat.succ_pos _, g + 1,
        run_pollTurn g s s.events⟩, hbusy, rfl⟩

/-- With BUSY = 0 the engine's turns do nothing (R95). -/
theorem engineTurns_ready (g : Nat) (s : State) (hb : s.busy = false) : Nat.iterate engineTurn g s = s :=
  Function.iterate_fixed (by rw [engineTurn, hb]; rfl) g

/-- With BUSY = 0 the loop ends at its first read. -/
theorem poll_ready (s : State) (g : Nat) (gaps : List Nat) (hb : s.busy = false) :
    poll (g :: gaps) s = some (respond (statusWord s) s) := by
  have hpolled : polled g s = respond (statusWord s) s := by rw [polled, engineTurns_ready g s hb]
  rw [poll_cons, hpolled, respond_busy, hb]
  rfl

/-- Engine turns while BUSY = 1: as many as rounds are left finish the permutation, fewer run some of those rounds (R95). -/
theorem engineTurns_busy (g : Nat) (s : State) (hb : s.busy = true) (hrnd : s.rnd.toNat ≤ 23) :
    (24 - s.rnd.toNat ≤ g → Nat.iterate engineTurn g s = finishPerm s) ∧
    (g < 24 - s.rnd.toNat → (Nat.iterate engineTurn g s).busy = true ∧
      (Nat.iterate engineTurn g s).rnd.toNat = s.rnd.toNat + g ∧ finishPerm (Nat.iterate engineTurn g s) = finishPerm s) := by
  induction g generalizing s with
  | zero => exact ⟨fun h => absurd h (by omega), fun _ => ⟨hb, rfl, rfl⟩⟩
  | succ g ih =>
    have hturn : engineTurn s = engineStep s := by rw [engineTurn, hb]; rfl
    rw [Function.iterate_succ_apply, hturn]
    by_cases hlast : s.rnd = 23
    · rw [← finishPerm_last s hlast]
      exact ⟨fun _ => engineTurns_ready g _ rfl, fun h => absurd h (by bv_omega)⟩
    · have hnext : (engineStep s).rnd.toNat = s.rnd.toNat + 1 := by
        rw [engineStep_rnd, if_neg hlast]
        bv_omega
      have hbusy : (engineStep s).busy = true := by rw [engineStep_busy, if_neg hlast, hb]
      have hlt : s.rnd.toNat < 23 := by bv_omega
      have hsame := finishPerm_engineStep s hlt
      obtain ⟨hfinish, hmidway⟩ := ih (engineStep s) hbusy (by omega)
      refine ⟨fun h => (hfinish (by omega)).trans hsame, fun h => ?_⟩
      obtain ⟨hb', hrnd', hsame'⟩ := hmidway (by omega)
      exact ⟨hb', by omega, hsame'.trans hsame⟩

/-- With BUSY = 1 the loop ends once its gaps hold the rounds left, and has read and finished the permutation, no more. -/
theorem poll_finishes (s : State) (gaps : List Nat) (hb : s.busy = true) (hrnd : s.rnd.toNat ≤ 23)
    (hsum : 24 - s.rnd.toNat ≤ gaps.sum) : ∃ t, poll gaps s = some t ∧ t = { finishPerm s with reads := t.reads } := by
  induction gaps generalizing s with
  | nil =>
    rw [List.sum_nil] at hsum
    omega
  | cons g gaps ih =>
    rw [List.sum_cons] at hsum
    obtain ⟨hfinish, hmidway⟩ := engineTurns_busy g s hb hrnd
    rw [poll_cons]
    by_cases hg : 24 - s.rnd.toNat ≤ g
    · have hpolled : polled g s = respond (statusWord (finishPerm s)) (finishPerm s) := by rw [polled, hfinish hg]; rfl
      exact ⟨_, by rw [hpolled]; rfl, rfl⟩
    · obtain ⟨hbusy, hnext, hsame⟩ := hmidway (by omega)
      have hpolled : (polled g s).rnd.toNat = s.rnd.toNat + g := hnext
      have hrest : finishPerm (polled g s) = respond (statusWord (Nat.iterate engineTurn g s)) (finishPerm s) :=
        congrArg (fun u : State => respond (statusWord (Nat.iterate engineTurn g s)) { u with events := s.events }) hsame
      obtain ⟨t, ht, hfinished⟩ := ih (polled g s) hbusy (by omega) (by omega)
      rw [if_pos (show (polled g s).busy = true from hbusy)]
      rw [hrest] at hfinished
      exact ⟨t, ht, hfinished⟩

/-- Settles O54. -/
theorem pollEndsAtTheFirstReadWithBusyClear : Obligations.PollEndsAtTheFirstReadWithBusyClear :=
  ⟨poll_ends, fun s g gaps hb => ⟨_, poll_ready s g gaps hb, rfl⟩, poll_finishes⟩

end Sys2Proof.Machine
end

section
/-! PROOFS. Four step mappings lane by lane and bit by bit (R84, R85, R87, R88), at every coordinate. -/

namespace Sys2Proof.Machine

section
variable (L : Lanes) (x y : Nat) {z : Nat} (hz : z < 64)

theorem lane_mod_left : lane L (x % 5) y = lane L x y := by simp only [lane, Nat.mod_mod]

theorem bit_mod_left : bit L (x % 5) y z = bit L x y z := by rw [bit, lane_mod_left, bit]

theorem thetaC_mod : thetaC L (x % 5) = thetaC L x := by simp only [thetaC, lane_mod_left]

theorem thetaD_mod : thetaD L (x % 5) = thetaD L x := by
  rw [thetaD, ← thetaC_mod L (x % 5 + 4), ← thetaC_mod L (x % 5 + 1), Nat.mod_add_mod, Nat.mod_add_mod, thetaC_mod, thetaC_mod,
    thetaD]

theorem lane_theta :
    lane (theta L) x y = lane L x y ^^^ (thetaC L ((x + 4) % 5) ^^^ rol64 (thetaC L ((x + 1) % 5)) 1) := by
  rw [theta, lane_ofLanes, lane_mod, thetaD_mod, thetaD, thetaC_mod, thetaC_mod]

theorem lane_rho : lane (rho L) x y = rol64 (lane L x y) (rhoOffset x y) := by
  rw [rho, lane_ofLanes, lane_mod]
  simp only [rhoOffset, Nat.mod_mod]

theorem lane_pi : lane (pi L) x y = lane L ((x + 3 * y) % 5) x := by
  have hx : (x % 5 + 3 * (y % 5)) % 5 = (x + 3 * y) % 5 := by omega
  rw [pi, lane_ofLanes, ← lane_mod_left, hx]
  simp only [lane, Nat.mod_mod]

theorem lane_chi : lane (chi L) x y = lane L x y ^^^ (~~~(lane L ((x + 1) % 5) y) &&& lane L ((x + 2) % 5) y) := by
  rw [chi, lane_ofLanes]
  simp only [lane, Nat.mod_add_mod, Nat.mod_mod]

/-- The column parity of R84, bit by bit. -/
def columnParity (z : Nat) : Bool := bit L x 0 z ^^ bit L x 1 z ^^ bit L x 2 z ^^ bit L x 3 z ^^ bit L x 4 z

theorem thetaC_getLsbD (z : Nat) : (thetaC L x).getLsbD z = columnParity L x z := by
  simp only [thetaC, BitVec.getLsbD_xor, columnParity, bit]

include hz

theorem bit_theta :
    bit (theta L) x y z = (bit L x y z ^^ (columnParity L ((x + 4) % 5) z ^^ columnParity L ((x + 1) % 5) ((z + 63) % 64))) := by
  rw [bit, lane_theta, BitVec.getLsbD_xor, BitVec.getLsbD_xor, getLsbD_rol64 _ 1 hz, thetaC_getLsbD, thetaC_getLsbD, bit]
  rfl

theorem bit_rho : bit (rho L) x y z = bit L x y ((z + 64 - rhoOffset x y) % 64) := by
  have hlt : rhoOffset x y < 64 := BitVec.isLt _
  rw [bit, lane_rho, getLsbD_rol64 _ _ hz, Nat.mod_eq_of_lt hlt, bit]

theorem bit_chi : bit (chi L) x y z = (bit L x y z ^^ (!bit L ((x + 1) % 5) y z && bit L ((x + 2) % 5) y z)) := by
  simp only [bit, lane_chi, BitVec.getLsbD_xor, BitVec.getLsbD_and, BitVec.getLsbD_not, hz, decide_true, Bool.true_and]

end

/-- Chi's inverse on a row of five bits. -/
theorem chi_row_inverse (a b c d e : Bool) :
    a = ((a ^^ (!b && c)) ^^ (!(b ^^ (!c && d)) && ((c ^^ (!d && e)) ^^ (!(d ^^ (!e && a)) && (e ^^ (!a && b)))))) := by
  revert a b c d e
  decide

/-- A bit is known from the five bits of its row after Chi. -/
theorem bit_of_chi (L : Lanes) (x y : Nat) {z : Nat} (hz : z < 64) :
    bit L x y z =
      (bit (chi L) (x % 5) y z ^^ (!bit (chi L) ((x + 1) % 5) y z &&
        (bit (chi L) ((x + 2) % 5) y z ^^ (!bit (chi L) ((x + 3) % 5) y z && bit (chi L) ((x + 4) % 5) y z)))) := by
  have hround : (x + 5) % 5 = x % 5 ∧ (x + 6) % 5 = (x + 1) % 5 := by omega
  simp only [bit_chi L _ y hz, Nat.mod_add_mod, Nat.add_assoc, Nat.reduceAdd, hround, ← bit_mod_left L x y]
  exact chi_row_inverse ..

/-- The lane that Pi brings to lane k (R87). -/
def piSource (k : Fin 25) : Fin 25 := ⟨(k % 5 + 3 * (k / 5)) % 5 + 5 * (k % 5), by omega⟩

theorem pi_getElem (L : Lanes) (k : Fin 25) : (pi L)[k] = L[piSource k] := by
  rw [pi]
  simp only [Fin.getElem_fin, ofLanes_getElem, lane, Nat.mod_mod, piSource]

theorem iterate_pi_getElem (n : Nat) (L : Lanes) (k : Fin 25) : (Nat.iterate pi n L)[k] = L[Nat.iterate piSource n k] := by
  induction n generalizing L with
  | zero => rfl
  | succ n ih =>
    rw [Function.iterate_succ_apply, ih, pi_getElem]
    simp only [Function.iterate_succ_apply']

theorem iterate_piSource_24 : ∀ k, Nat.iterate piSource 24 k = k := by decide

/-- Where every lane has returned to its place, the lanes are the same. -/
theorem iterate_pi_eq_self {n : Nat} (h : ∀ k, Nat.iterate piSource n k = k) (L : Lanes) : Nat.iterate pi n L = L := by
  refine Vector.ext fun k hk => ?_
  have hlane := iterate_pi_getElem n L ⟨k, hk⟩
  simpa only [h, Fin.getElem_fin] using hlane

/-- The lanes after Pi, listed by the lanes they come from. -/
theorem pi_toList (L : Lanes) : (pi L).toList = (List.finRange 25).map fun k => L.toList.getD (piSource k) 0 := by
  refine List.ext_getElem (by simp) fun k hk _ => ?_
  have hk : k < 25 := by simpa using hk
  have hlane := pi_getElem L ⟨k, hk⟩
  simpa [List.getD_eq_getElem] using hlane

end Sys2Proof.Machine
end

section
/-! PROOFS. The commands that map the lanes: THETA, RHO, PI and CHI (R97 to R100). -/

namespace Sys2Proof.Machine

/-- With BUSY = 0 such a command completes, and what it changes is the lanes. -/
theorem exec_mapLanes {i : Instr} {f : Lanes → Lanes} (hi : instrEffect i = mapLanes f) (s : State) (hb : s.busy = false) :
    exec i s = .next { s with lanes := f s.lanes, events := s.events.tail } := by
  rw [exec_ready i s hb, hi]
  rfl

/-- Settles O15. -/
theorem thetaXorsTwoColumnParities : Obligations.ThetaXorsTwoColumnParities := fun s hb =>
  ⟨_, exec_mapLanes rfl s hb, rfl, fun x y _ _ _ hz => bit_theta s.lanes x y hz, fun x y _ _ => lane_theta s.lanes x y⟩

/-- Settles O16. -/
theorem rhoRotatesEveryLaneByItsOffset : Obligations.RhoRotatesEveryLaneByItsOffset := fun s hb =>
  ⟨_, exec_mapLanes rfl s hb, rfl, fun x y _ _ =>
    ⟨BitVec.isLt _, lane_rho s.lanes x y, fun _ hz => bit_rho s.lanes x y hz⟩⟩

/-- Settles O18: Pi moves the lanes by `piSource`, whose 24th iterate is the identity. -/
theorem piMovesLanesAndHasOrder24 : Obligations.PiMovesLanesAndHasOrder24 := by
  refine ⟨fun s hb => ⟨_, exec_mapLanes rfl s hb, rfl, fun x y _ _ => ?_, pi_toList s.lanes, pi_getElem s.lanes 0⟩,
    iterate_pi_eq_self iterate_piSource_24⟩
  have hlane : lane (pi s.lanes) x y = lane s.lanes ((x + 3 * y) % 5) x := lane_pi s.lanes x y
  exact ⟨hlane, fun z _ => congrArg (·.getLsbD z) hlane⟩

/-- Settles O19: a row before Chi is computed from the row after it. -/
theorem chiIsTheNonlinearRowBijection : Obligations.ChiIsTheNonlinearRowBijection := by
  refine ⟨fun s hb => ⟨_, exec_mapLanes rfl s hb, rfl, fun x y _ _ _ hz => bit_chi s.lanes x y hz,
    fun x y _ _ => lane_chi s.lanes x y⟩, fun L M y z _ hz hrow x _ => ?_⟩
  have hsame (k : Nat) : bit (chi L) (k % 5) y z = bit (chi M) (k % 5) y z := hrow _ (Nat.mod_lt k (by decide))
  rw [bit_of_chi L x y hz, bit_of_chi M x y hz]
  simp only [hsame]

end Sys2Proof.Machine
end

section
/-! PROOFS. The two constant tables against their generators (R86, R90, R91), and the commands with a round index (R101, R102). -/

namespace Sys2Proof.Machine

/-- The walk comes to each lane other than (0,0) (R86). -/
theorem rhoWalk_visits : ∀ x, x < 5 → ∀ y, y < 5 → (x, y) ≠ (0, 0) → ∃ t, t < 24 ∧ rhoWalk t = (x, y) := by
  decide

/-- The walk comes to no lane twice in its 24 steps (R86). -/
theorem rhoWalk_injective : ∀ t, t < 24 → ∀ u, u < 24 → rhoWalk u = rhoWalk t → u = t := by
  decide

theorem rhoOffset_rhoWalk : ∀ t, t < 24 → rhoOffset (rhoWalk t).1 (rhoWalk t).2 = (t + 1) * (t + 2) / 2 % 64 := by
  decide

/-- Settles O17. -/
theorem rhoOffsetsFollowTheWalk : Obligations.RhoOffsetsFollowTheWalk := by
  refine ⟨rfl, rhoOffset_rhoWalk, fun x y hx hy hne => ?_, rfl, fun _ => rfl, rfl⟩
  obtain ⟨t, ht, hvisit⟩ := rhoWalk_visits x hx y hy hne
  exact ⟨t, ht, hvisit, fun u hu hagain => rhoWalk_injective t ht u hu (hagain.trans hvisit.symm)⟩

theorem roundConstant_ofNat : ∀ ir, ir < 24 → roundConstant (BitVec.ofNat 5 ir) = rcWord ir := by
  decide

/-- Settles O21. -/
theorem roundConstantsAreTheGeneratedOnes : Obligations.RoundConstantsAreTheGeneratedOnes :=
  ⟨rfl, roundConstant_ofNat⟩

theorem roundConstant_eq_rcWord (ir : BitVec 5) (h : ir.toNat ≤ 23) : roundConstant ir = rcWord ir.toNat := by
  rw [← roundConstant_ofNat ir.toNat (by omega), BitVec.ofNat_toNat, BitVec.setWidth_eq]

theorem iota_getElem (L : Lanes) (ir : BitVec 5) (j : Nat) (hj : j < 25) :
    (iota L ir)[j] = if j = 0 then L[0] ^^^ roundConstant ir else L[j] := by
  simp only [iota, Vector.getElem_set, eq_comm]

/-- The second XOR of the constant takes it out again (R89). -/
theorem iota_iota (L : Lanes) (ir : BitVec 5) : iota (iota L ir) ir = L := by
  refine Vector.ext fun j hj => ?_
  by_cases h : j = 0 <;> simp [iota_getElem, h]

/-- With BUSY = 0 and an index of at most 23, a command with a round index maps the lanes. -/
theorem exec_roundIndex {i : Instr} {ir : BitVec 5} {f : Lanes → Lanes} (hi : instrEffect i = withRoundIndex ir (mapLanes f))
    (s : State) (hb : s.busy = false) (hir : ir.toNat ≤ 23) :
    exec i s = .next { s with lanes := f s.lanes, events := s.events.tail } := by
  rw [exec_ready i s hb, hi, withRoundIndex, if_pos hir]
  rfl

/-- With BUSY = 0 and an index above 23, it records E_ARG (R79). -/
theorem exec_roundIndex_refused {i : Instr} {ir : BitVec 5} {act : State → State} (hi : instrEffect i = withRoundIndex ir act)
    (s : State) (hb : s.busy = false) (hir : 24 ≤ ir.toNat) :
    exec i s = .next { s with err := if s.err = 0 then 3 else s.err, events := s.events.tail } := by
  rw [exec_ready i s hb, hi, withRoundIndex, if_neg (by omega), recordErr_eq]
  rfl

/-- Settles O20. -/
theorem iotaXorsTheRoundConstant : Obligations.IotaXorsTheRoundConstant := by
  refine fun s ir hb => ⟨fun hir => ?_, exec_roundIndex_refused rfl s hb⟩
  refine ⟨_, _, exec_roundIndex rfl s hb hir, rfl, ?_, fun j hj hne => ?_, exec_roundIndex rfl _ hb hir, iota_iota s.lanes ir⟩
  · rw [iota_getElem, if_pos rfl, roundConstant_eq_rcWord ir hir]
  · rw [iota_getElem, if_neg hne]

/-- Settles O22: the lanes after the five commands are the round of R92. -/
theorem roundIsTheFiveStepsInOrder : Obligations.RoundIsTheFiveStepsInOrder := by
  refine fun s ir hb => ⟨fun hir => ?_, exec_roundIndex_refused rfl s hb⟩
  refine ⟨_, _, _, _, _, exec_mapLanes rfl s hb, exec_mapLanes rfl _ hb, exec_mapLanes rfl _ hb, exec_mapLanes rfl _ hb,
    exec_roundIndex rfl _ hb hir, ?_⟩
  rw [exec_roundIndex rfl s hb hir, keccakRound]

end Sys2Proof.Machine
end

section
/-! PROOFS. PERMUTE and the engine: a permutation started, stepped and ended (R93 to R95, R103). -/

namespace Sys2Proof.Machine

/-- Settles O23. -/
theorem permuteStartsThePermutation : Obligations.PermuteStartsThePermutation := exec_ready .permute

/-- With no event left, the step of a busy block is the engine's. -/
theorem step_nil_busy (s : State) (hb : s.busy = true) (h : s.events = []) : step s = .next (engineStep s) := by
  rw [step_nil s h, engineTurn, hb, if_pos rfl]

/-- Settles O24: the step of PERMUTE, and then the 24 rounds left. -/
theorem permuteThenTwentyFourEngineSteps : Obligations.PermuteThenTwentyFourEngineSteps := by
  intro s hb hev
  have hdecode : decode (encode .permute) = .ok .permute := decodeOfEncodeIsTheInstruction .permute rfl
  have hstart : step s = .next (retire (startPerm s)) :=
    (step_code_request s _ [] _ hev hdecode).trans (exec_ready _ s hb)
  have hevents : (retire (startPerm s)).events = [] := congrArg List.tail hev
  have hrun := run_finishPerm [] step_nil_busy (retire (startPerm s)) rfl (Nat.zero_le 23) hevents
  rw [List.range_eq_range']
  refine (run_succ 24 s _ hstart).trans (hrun.trans ?_)
  simp only [finishPerm, hevents]
  rfl

/-- The engine's turn of a busy block at the last round index. -/
theorem engineTurn_last (s : State) (hb : s.busy = true) (h : s.rnd = 23) :
    engineTurn s = { s with lanes := keccakRound s.lanes 23, busy := false, rnd := 0 } := by
  simp only [engineTurn, hb, if_true, engineStep, h]

/-- The engine's turn of a busy block before the last round index. -/
theorem engineTurn_before_last (s : State) (hb : s.busy = true) (h : s.rnd ≠ 23) :
    engineTurn s = { s with lanes := keccakRound s.lanes s.rnd, rnd := s.rnd + 1 } := by
  simp only [engineTurn, hb, if_true, engineStep, if_neg h]

theorem engineTurn_ready (s : State) (hb : s.busy = false) : engineTurn s = s := by
  rw [engineTurn, hb, if_neg Bool.false_ne_true]

/-- Settles O25: with no event left the step is the engine's turn, and at an `engine` event it also takes the event. -/
theorem engineStepIsOneRound : Obligations.EngineStepIsOneRound := by
  intro s
  have htake (rest : List Event) (hev : s.events = .engine :: rest) : step s = .next { engineTurn s with events := rest } := by
    rw [step_engine s rest hev, retire, engineTurn_events, hev, List.tail_cons]
  refine ⟨fun hb hev => ⟨fun hlast => ?_, fun hne => ?_⟩, fun hb rest hev => ⟨fun hlast => ?_, fun hne => ?_⟩, fun hb hev => ?_,
    fun hb rest hev => ?_⟩
  · rw [step_nil s hev, engineTurn_last s hb hlast]
  · rw [step_nil s hev, engineTurn_before_last s hb hne]
  · rw [htake rest hev, engineTurn_last s hb hlast]
  · rw [htake rest hev, engineTurn_before_last s hb hne]
  · rw [step_nil s hev, engineTurn_ready s hb]
  · rw [htake rest hev, engineTurn_ready s hb]

end Sys2Proof.Machine
end

section
/-! PROOFS. What INIT, FINAL, the write of DIN and the read of DOUT do to the block with BUSY = 0 (R108 to R110, R112, R113). -/

namespace Sys2Proof.Machine

/-! ### INIT -/

theorem num_lt_six (f : SpongeFn) : f.num.toNat < 6 := by
  cases f <;> decide

/-- A function R104 lists, with an output length where it asks for one, is accepted (R108). -/
theorem initHash_accepted {s : State} {f : SpongeFn} (hf : s.func = f.num) (hout : isXof f.num = true → s.outlen ≠ 0) :
    initHash s = beginHash (clearErr s) := by
  have hlt : s.func.toNat < 6 := hf ▸ num_lt_six f
  obtain ⟨hmode, -⟩ | ⟨-, hxof, hzero, -⟩ | ⟨-, -, heq⟩ := initHash_cases s
  · omega
  · exact absurd hzero (hout (hf ▸ hxof))
  · exact heq

/-- The output length INIT latches: the function's own, or OUTLEN (R104, R108). -/
def latchedLength (f : SpongeFn) (outlen : Word) : Word :=
  match f.digestBits with
  | some d => BitVec.ofNat 64 d
  | none => outlen

theorem beginHash_rem_num {s : State} {f : SpongeFn} (hf : s.func = f.num) : (beginHash s).rem = latchedLength f s.outlen := by
  rw [beginHash_rem, hf]
  cases f <;> rfl

/-- Settles O29. -/
theorem initBeginsAHash : Obligations.InitBeginsAHash := by
  intro s f hb hf hout
  have heffect : instrEffect .init s = beginHash (clearErr s) := initHash_accepted hf hout
  have hrem : (beginHash (clearErr s)).rem = latchedLength f s.outlen := beginHash_rem_num hf
  rw [exec_ready .init s hb, heffect, ← hf]
  exact congrArg (fun w => Host.Outcome.next { retire (beginHash (clearErr s)) with rem := w }) hrem

/-- Settles O30: FUNC 6 and 7 are refused with E_MODE, an XOF of length 0 with E_LEN. -/
theorem refusedInitAbandonsTheHash : Obligations.RefusedInitAbandonsTheHash := by
  intro s hb hrefused
  have heffect : instrEffect .init s = initHash s := rfl
  rw [exec_ready .init s hb, heffect]
  obtain ⟨hmode, heq⟩ | ⟨hlt, -, -, heq⟩ | ⟨hlt, hout, -⟩ := initHash_cases s
  · rw [heq, recordErr_eq, if_pos hmode]
    rfl
  · rw [heq, recordErr_eq, if_neg (Nat.not_le.mpr hlt)]
    rfl
  · obtain hmode | ⟨hxof, hzero⟩ := hrefused
    · omega
    · exact absurd hzero (hout (by obtain h | h := hxof <;> rw [h] <;> rfl))

/-- Settles O31: what an accepted INIT leaves of the block is MODE, OUTLEN and RND, which is 0 (R49 (a)). -/
theorem acceptedInitForgetsEarlierHashes : Obligations.AcceptedInitForgetsEarlierHashes := by
  intro s t f hs ht hbs hbt hfs hft hlen hout hevents hreads
  rw [initBeginsAHash s f hbs hfs hout, initBeginsAHash t f hbt hft (hlen ▸ hout)]
  simp only [hbs, hbt, hs.idleRnd hbs, ht.idleRnd hbt, hfs, hft, hlen, hevents, hreads]

/-! ### The write of DIN -/

/-- Advancing a pointer below RL reaches RL exactly when one lane was left. -/
theorem succ_eq_iff {p rl : BitVec 5} (h : p.toNat < rl.toNat) : p + 1 = rl ↔ p.toNat + 1 = rl.toNat := by
  bv_omega

theorem ofNat_toNat_succ (p : BitVec 5) : BitVec.ofNat 5 (p.toNat + 1) = p + 1 := by
  bv_omega

/-- An access that the phase refuses records E_PHASE and returns nothing (R109, R110). -/
theorem retire_recordErr_phase (s : State) :
    retire (recordErr .phase s) = { s with err := if s.err = 0 then 4 else s.err, events := s.events.tail } := by
  rw [recordErr_eq]
  rfl

theorem exec_wrDin_accepted (v : Word) {s : State} (hb : s.busy = false) (hp : s.phase = .absorb) :
    exec (.wrDin v) s = .next (retire (absorbWord v s)) := by
  rw [exec_ready _ s hb, instrEffect, dinWrite, if_pos hp]

theorem exec_wrDin_refused (v : Word) {s : State} (hb : s.busy = false) (hp : s.phase ≠ .absorb) :
    exec (.wrDin v) s = .next { s with err := if s.err = 0 then 4 else s.err, events := s.events.tail } := by
  rw [exec_ready _ s hb, instrEffect, dinWrite, if_neg hp, retire_recordErr_phase]

theorem absorbWord_lanes (v : Word) (s : State) : (absorbWord v s).lanes = xorLane s.lanes s.lptr v := by
  obtain ⟨-, heq⟩ | ⟨-, heq⟩ := absorbWord_cases v s <;> rw [heq]

/-- A word that leaves its block open (R109). -/
theorem absorbWord_open (v : Word) {s : State} (h : s.lptr.toNat + 1 < (rateLanes s.lfunc).toNat) :
    absorbWord v s = { s with lanes := xorLane s.lanes s.lptr v, lptr := s.lptr + 1 } := by
  obtain ⟨hfull, -⟩ | ⟨-, heq⟩ := absorbWord_cases v s
  · have := (succ_eq_iff (by omega)).mp hfull
    omega
  · exact heq

/-- The last word of its block (R109). -/
theorem absorbWord_full (v : Word) {s : State} (h : s.lptr.toNat + 1 = (rateLanes s.lfunc).toNat) :
    absorbWord v s = { s with lanes := xorLane s.lanes s.lptr v, lptr := 0, busy := true, rnd := 0 } := by
  obtain ⟨-, heq⟩ | ⟨hopen, -⟩ := absorbWord_cases v s
  · exact heq
  · exact absurd ((succ_eq_iff (by omega)).mpr h) hopen

/-- Settles O32. -/
theorem dinAbsorbsOneWord : Obligations.DinAbsorbsOneWord := by
  intro s v f _ hb hf
  have hrate : (rateLanes s.lfunc).toNat = f.rate / 64 := hf ▸ rateLanes_num f
  refine ⟨fun hp => ⟨_, exec_wrDin_accepted v hb hp, fun j hj => ?_, fun hopen => ?_, fun hfull => ?_⟩,
    exec_wrDin_refused v hb⟩
  · simp only [retire_lanes, absorbWord_lanes, xorLane_getElem, eq_comm]
  · rw [absorbWord_open v (hrate ▸ hopen), ofNat_toNat_succ]
    rfl
  · rw [absorbWord_full v (hrate ▸ hfull)]
    rfl

/-! ### FINAL -/

theorem exec_final_accepted (nb : BitVec 3) (tail : BitVec 56) {s : State} (hb : s.busy = false) (hp : s.phase = .absorb) :
    exec (.final nb tail) s = .next (retire (padBlock nb tail s)) := by
  rw [exec_ready _ s hb, instrEffect, commandEffect, finalPad, if_pos hp]

theorem exec_final_refused (nb : BitVec 3) (tail : BitVec 56) {s : State} (hb : s.busy = false) (hp : s.phase ≠ .absorb) :
    exec (.final nb tail) s = .next { s with err := if s.err = 0 then 4 else s.err, events := s.events.tail } := by
  rw [exec_ready _ s hb, instrEffect, commandEffect, finalPad, if_neg hp, retire_recordErr_phase]

theorem getLsbD_lowBits (v : Word) (n : Nat) {z : Nat} (hz : z < 64) : (lowBits v n).getLsbD z = (decide (z < n) && v.getLsbD z) := by
  rw [lowBits, BitVec.getLsbD_and, BitVec.getLsbD_ofNat, Nat.testBit_two_pow_sub_one, decide_eq_true hz, Bool.true_and,
    Bool.and_comm]

/-- The suffix byte by its function (R104). -/
theorem suffixByte_num (f : SpongeFn) : suffixByte f.num = if isXof f.num then 0x1F else 0x06 := by
  cases f <;> rfl

/-- The word FINAL absorbs: the tail bytes below bit 8 NB, the suffix byte from there on (R110). -/
theorem getLsbD_finalWord (k : BitVec 3) (nb : BitVec 3) (tail : BitVec 56) {z : Nat} (hz : z < 64) :
    (finalWord k nb tail).getLsbD z =
      if z < 8 * nb.toNat then tail.getLsbD z else (suffixByte k).getLsbD (z - 8 * nb.toNat) := by
  rw [finalWord, BitVec.getLsbD_or, getLsbD_lowBits _ _ hz]
  by_cases hbyte : z < 8 * nb.toNat
  · simp [hbyte, hz]
  · simp [hbyte, hz]

theorem getLsbD_lastPadBit {z : Nat} (hz : z < 64) : lastPadBit.getLsbD z = decide (z = 63) := by
  revert z
  decide

/-- A bit of a lane after FINAL's two XORs (R110). -/
theorem getLsbD_padLanes {s : State} {f : SpongeFn} (hf : s.lfunc = f.num) (nb : BitVec 3) (tail : BitVec 56) {j z : Nat}
    (hj : j < 25) (hz : z < 64) :
    (padLanes nb tail s)[j].getLsbD z = (s.lanes[j].getLsbD z ^^
      (decide (j = s.lptr.toNat) && (finalWord s.lfunc nb tail).getLsbD z) ^^ (decide (j + 1 = f.rate / 64) && decide (z = 63))) := by
  have hlast : (rateLanes s.lfunc - 1).toNat = j ↔ j + 1 = f.rate / 64 := by
    have hrate : (rateLanes s.lfunc).toNat = f.rate / 64 := hf ▸ rateLanes_num f
    have hrange := rateLanes_range s.lfunc (hf ▸ Nat.le_of_lt_succ (num_lt_six f))
    bv_omega
  rw [padLanes, xorLane_getElem, xorLane_getElem]
  simp only [hlast, eq_comm (a := j)]
  by_cases h1 : s.lptr.toNat = j <;> by_cases h2 : j + 1 = f.rate / 64 <;>
    simp [h1, h2, getLsbD_lastPadBit hz]

/-- Settles O33. -/
theorem finalPadsAndStartsSqueezing : Obligations.FinalPadsAndStartsSqueezing := by
  intro s nb tail f _ hb hf
  refine ⟨fun hp => ⟨_, exec_final_accepted nb tail hb hp, rfl, fun j hj z hz => ?_⟩, exec_final_refused nb tail hb⟩
  simp only [retire_lanes, padBlock, startPerm_lanes, getLsbD_padLanes hf nb tail hj hz, getLsbD_finalWord _ nb tail hz, hf,
    suffixByte_num]

/-- LPTR names a lane of the rate (R49 (d)). -/
theorem Invariants.lptr_lt_lanes {s : State} (hs : Invariants s) {f : SpongeFn} (hf : s.lfunc = f.num) :
    s.lptr.toNat < f.rate / 64 := by
  rw [← rateLanes_num, ← hf]
  exact hs.lptrRange

/-- Settles O36: DIN writes the lane at LPTR, FINAL that and the last rate lane. -/
theorem capacityLanesAreNeverAbsorbedInto : Obligations.CapacityLanesAreNeverAbsorbedInto := by
  intro s i f hs hb hf hi
  have hlptr : s.lptr.toNat < f.rate / 64 := hs.lptr_lt_lanes hf
  by_cases hp : s.phase = .absorb
  · obtain ⟨v, rfl⟩ | ⟨nb, tail, rfl⟩ := hi
    · refine ⟨_, exec_wrDin_accepted v hb hp, fun j hj hcap => ?_⟩
      simp only [retire_lanes, absorbWord_lanes, xorLane_getElem]
      rw [if_neg (by omega)]
    · refine ⟨_, exec_final_accepted nb tail hb hp, fun j hj hcap => BitVec.eq_of_getLsbD_eq fun z hz => ?_⟩
      have hptr : j ≠ s.lptr.toNat := by omega
      have hlast : j + 1 ≠ f.rate / 64 := by omega
      simp only [retire_lanes, padBlock, startPerm_lanes, getLsbD_padLanes hf nb tail hj hz]
      simp [hptr, hlast]
  · obtain ⟨v, rfl⟩ | ⟨nb, tail, rfl⟩ := hi
    · exact ⟨_, exec_wrDin_refused v hb hp, fun j hj _ => rfl⟩
    · exact ⟨_, exec_final_refused nb tail hb hp, fun j hj _ => rfl⟩

/-! ### The read of DOUT -/

theorem exec_rdDout_accepted {s : State} (hb : s.busy = false) (hp : s.phase = .squeeze) :
    exec .rdDout s = .next (retire (respond (outputWord s) (consumeWord s))) := by
  rw [exec_ready _ s hb, instrEffect, doutRead, if_pos hp]

/-- Bit z of the word read is due if REM is above z (R113). -/
theorem getLsbD_outputWord {s : State} (h : s.optr.toNat < 25) {z : Nat} (hz : z < 64) :
    (outputWord s).getLsbD z = (decide (z < s.rem.toNat) && s.lanes[s.optr.toNat].getLsbD z) := by
  have hdue : z < outputBits s.rem ↔ z < s.rem.toNat := by
    rw [outputBits]
    omega
  rw [outputWord, getLsbD_lowBits _ _ hz, getLane_of_lt _ _ h]
  simp only [hdue]

/-- REM after a read (R113). -/
theorem rem_left (s : State) : s.rem - BitVec.ofNat 64 (outputBits s.rem) = BitVec.ofNat 64 (s.rem.toNat - 64) := by
  have hbits : outputBits s.rem = min s.rem.toNat 64 := rfl
  rw [hbits]
  bv_omega

/-- The read that delivers the last bits due (R113). -/
theorem consumeWord_last {s : State} (h : s.rem.toNat ≤ 64) :
    consumeWord s = { s with rem := 0, optr := s.optr + 1, phase := .done } := by
  have hnone : s.rem - BitVec.ofNat 64 (outputBits s.rem) = 0 := by
    rw [rem_left, Nat.sub_eq_zero_of_le h]
    rfl
  obtain ⟨-, heq⟩ | ⟨hdue, -⟩ | ⟨hdue, -⟩ := consumeWord_cases s
  · exact heq
  · exact absurd hnone hdue
  · exact absurd hnone hdue

section
variable {s : State} (hdue : 64 < s.rem.toNat)
include hdue

theorem rem_left_ne_zero : s.rem - BitVec.ofNat 64 (outputBits s.rem) ≠ 0 := by
  rw [rem_left]
  bv_omega

/-- A read with output still due in its block (R113). -/
theorem consumeWord_open (h : s.optr.toNat + 1 < (rateLanes s.lfunc).toNat) :
    consumeWord s = { s with rem := BitVec.ofNat 64 (s.rem.toNat - 64), optr := s.optr + 1 } := by
  obtain ⟨hnone, -⟩ | ⟨-, hfull, -⟩ | ⟨-, -, heq⟩ := consumeWord_cases s
  · exact absurd hnone (rem_left_ne_zero hdue)
  · have := (succ_eq_iff (by omega)).mp hfull
    omega
  · rw [heq, rem_left]

/-- A read that empties its block with output still due (R113). -/
theorem consumeWord_emptied (h : s.optr.toNat + 1 = (rateLanes s.lfunc).toNat) :
    consumeWord s = { s with rem := BitVec.ofNat 64 (s.rem.toNat - 64), optr := 0, busy := true, rnd := 0 } := by
  obtain ⟨hnone, -⟩ | ⟨-, -, heq⟩ | ⟨-, hopen, -⟩ := consumeWord_cases s
  · exact absurd hnone (rem_left_ne_zero hdue)
  · rw [heq, rem_left]
  · exact absurd ((succ_eq_iff (by omega)).mpr h) hopen

end

/-- Settles O35. -/
theorem doutDeliversOneWord : Obligations.DoutDeliversOneWord := by
  intro s f hs hb hf
  have hrate : (rateLanes s.lfunc).toNat = f.rate / 64 := hf ▸ rateLanes_num f
  refine ⟨fun hp => ⟨outputWord s, _, exec_rdDout_accepted hb hp, fun h z hz => getLsbD_outputWord h hz,
    hrate ▸ hs.optr_lt_of_squeeze hp, fun hlast => ?_, fun hdue hopen => ?_, fun hdue hfull => ?_⟩, fun hp => ?_⟩
  · rw [consumeWord_last hlast, ofNat_toNat_succ]
    rfl
  · rw [consumeWord_open hdue (hrate ▸ hopen), ofNat_toNat_succ]
    rfl
  · rw [consumeWord_emptied hdue (hrate ▸ hfull)]
    rfl
  · rw [exec_ready _ s hb, instrEffect, doutRead, if_neg hp, recordErr_eq]
    rfl

end Sys2Proof.Machine
end

section
/-! PROOFS. Bit sequences, words and lanes (R15, R59 to R61): the bit at a place, and which word, state or message it comes from. -/

namespace Sys2Proof.Machine

/-! ### Bit sequences -/

/-- Bit k of a sequence, 0 beyond its end. -/
def bitAt (S : Bits) (k : Nat) : Bool := S[k]?.getD false

@[simp] theorem bitAt_nil (k : Nat) : bitAt [] k = false := rfl

theorem bitAt_of_length_le {S : Bits} {k : Nat} (h : S.length ≤ k) : bitAt S k = false := by
  rw [bitAt, List.getElem?_eq_none h, Option.getD_none]

theorem bitAt_of_lt {S : Bits} {k : Nat} (h : k < S.length) : bitAt S k = S[k] := by
  rw [bitAt, List.getElem?_eq_getElem h, Option.getD_some]

theorem bitAt_append (S T : Bits) (k : Nat) : bitAt (S ++ T) k = if k < S.length then bitAt S k else bitAt T (k - S.length) := by
  simp only [bitAt, List.getElem?_append]
  split <;> rfl

@[simp] theorem bitAt_drop (S : Bits) (n k : Nat) : bitAt (S.drop n) k = bitAt S (n + k) := by
  simp only [bitAt, List.getElem?_drop]

theorem bitAt_take (S : Bits) (n k : Nat) : bitAt (S.take n) k = (decide (k < n) && bitAt S k) := by
  by_cases h : k < n <;> simp [bitAt, h]

@[simp] theorem bitAt_replicate_false (n k : Nat) : bitAt (List.replicate n false) k = false := by
  by_cases h : k < n <;> simp [bitAt, h]

/-- Two sequences of one length with the same bits are the same sequence. -/
theorem bits_ext {S T : Bits} (hlength : S.length = T.length) (h : ∀ k, k < S.length → bitAt S k = bitAt T k) : S = T := by
  refine List.ext_getElem hlength fun k hS hT => ?_
  rw [← bitAt_of_lt hS, ← bitAt_of_lt hT, h k hS]

theorem bitAt_zipWith_xor {S T : Bits} {k : Nat} (h : S.length = T.length) :
    bitAt (List.zipWith xor S T) k = (bitAt S k ^^ bitAt T k) := by
  by_cases hk : k < S.length
  · have hT : k < T.length := h ▸ hk
    rw [bitAt_of_lt (by simpa [← h] using hk), bitAt_of_lt hk, bitAt_of_lt hT, List.getElem_zipWith]
  · rw [bitAt_of_length_le (by simp; omega), bitAt_of_length_le (by omega), bitAt_of_length_le (by omega)]
    rfl

/-- Bit k of a concatenation of pieces of n bits each. -/
theorem bitAt_flatMap {α : Type} (piece : α → Bits) {n : Nat} (hn : 0 < n) (hpiece : ∀ a, (piece a).length = n) (xs : List α)
    (k : Nat) : bitAt (xs.flatMap piece) k = (xs[k / n]?.elim false fun a => bitAt (piece a) (k % n)) := by
  induction xs generalizing k with
  | nil => rfl
  | cons a xs ih =>
    rw [List.flatMap_cons, bitAt_append, hpiece]
    by_cases hk : k < n
    · rw [if_pos hk, Nat.div_eq_of_lt hk, Nat.mod_eq_of_lt hk]
      rfl
    · have hdiv : k / n = (k - n) / n + 1 := Nat.div_eq_sub_div hn (by omega)
      rw [if_neg hk, ih, hdiv, List.getElem?_cons_succ, Nat.mod_eq_sub_mod (by omega : n ≤ k)]

/-! ### Words -/

theorem testBit_bitsValue (S : Bits) (k : Nat) : (bitsValue S).testBit k = bitAt S k := by
  induction S generalizing k with
  | nil => exact Nat.zero_testBit k
  | cons b S ih =>
    have hvalue : bitsValue (b :: S) = Nat.bit b (bitsValue S) := by
      rw [bitsValue, Nat.bit_val, Nat.add_comm]
    rw [hvalue]
    cases k with
    | zero => rw [Nat.testBit_bit_zero]; rfl
    | succ k => rw [Nat.testBit_bit_succ, ih]; rfl

theorem getLsbD_wordOfBits (S : Bits) {z : Nat} (hz : z < 64) : (wordOfBits S).getLsbD z = bitAt S z := by
  rw [wordOfBits, BitVec.getLsbD_ofNat, decide_eq_true hz, Bool.true_and, testBit_bitsValue]

/-! ### The state as a bit sequence (R60) -/

/-- Bit z of lane j is bit 64j + z of the sequence. -/
theorem getLsbD_lanesOfBits (S : Bits) {j z : Nat} (hj : j < 25) (hz : z < 64) :
    (lanesOfBits S)[j].getLsbD z = bitAt S (64 * j + z) := by
  rw [lanesOfBits, Vector.getElem_ofFn, getLsbD_wordOfBits _ hz, bitAt_take, bitAt_drop, decide_eq_true hz, Bool.true_and]

/-- Two states with the same bits are the same state. -/
theorem lanes_ext_bits {L M : Lanes} (h : ∀ j, ∀ hj : j < 25, ∀ z, z < 64 → L[j].getLsbD z = M[j].getLsbD z) : L = M :=
  Vector.ext fun j hj => BitVec.eq_of_getLsbD_eq fun z hz => h j hj z hz

theorem length_bitsOfLanes (L : Lanes) : (bitsOfLanes L).length = 1600 := by
  simp [bitsOfLanes, List.length_flatMap]

theorem bitAt_bitsOfLanes (L : Lanes) {j z : Nat} (hj : j < 25) (hz : z < 64) : bitAt (bitsOfLanes L) (64 * j + z) = L[j].getLsbD z := by
  have hdiv : (64 * j + z) / 64 = j := by omega
  have hmod : (64 * j + z) % 64 = z := by omega
  rw [bitsOfLanes, bitAt_flatMap _ (by decide : 0 < 64) (by simp), hdiv, hmod, List.getElem?_eq_getElem (by simpa using hj)]
  simp [bitAt, hz]

@[simp] theorem lanesOfBits_bitsOfLanes (L : Lanes) : lanesOfBits (bitsOfLanes L) = L :=
  lanes_ext_bits fun j hj z hz => by rw [getLsbD_lanesOfBits _ hj hz, bitAt_bitsOfLanes L hj hz]

@[simp] theorem lanesOfBits_keccakFBits (S : Bits) : lanesOfBits (keccakFBits S) = keccakF (lanesOfBits S) :=
  lanesOfBits_bitsOfLanes _

theorem length_keccakFBits (S : Bits) : (keccakFBits S).length = 1600 := length_bitsOfLanes _

theorem lanesOfBits_iterate_keccakFBits (n : Nat) (S : Bits) :
    lanesOfBits (Nat.iterate keccakFBits n S) = Nat.iterate keccakF n (lanesOfBits S) := by
  induction n generalizing S with
  | zero => rfl
  | succ n ih => rw [Function.iterate_succ_apply, Function.iterate_succ_apply, ih, lanesOfBits_keccakFBits]

/-! ### Messages (R59) -/

theorem length_messageBits (M : List Byte) : (messageBits M).length = 8 * M.length := by
  simp [messageBits, List.length_flatMap, Nat.mul_comm]

theorem messageBits_cons (b : Byte) (M : List Byte) : messageBits (b :: M) = (List.range 8).map b.getLsbD ++ messageBits M :=
  List.flatMap_cons

theorem messageBits_append (M N : List Byte) : messageBits (M ++ N) = messageBits M ++ messageBits N :=
  List.flatMap_append

theorem messageBits_take (M : List Byte) (k : Nat) : messageBits (M.take k) = (messageBits M).take (8 * k) := by
  by_cases hk : k ≤ M.length
  · have hlength : 8 * k = (messageBits (M.take k)).length := by rw [length_messageBits, List.length_take_of_le hk]
    conv_rhs => rw [← List.take_append_drop k M, messageBits_append, hlength, List.take_left']
  · rw [List.take_of_length_le (by omega), List.take_of_length_le (by rw [length_messageBits]; omega)]

theorem messageBits_drop (M : List Byte) (k : Nat) : messageBits (M.drop k) = (messageBits M).drop (8 * k) := by
  have hsplit : messageBits (M.take k) ++ messageBits (M.drop k) = (messageBits M).take (8 * k) ++ (messageBits M).drop (8 * k) := by
    rw [← messageBits_append, List.take_append_drop, List.take_append_drop]
  rw [messageBits_take] at hsplit
  exact List.append_cancel_left hsplit

theorem bitAt_byte_bits (b : Byte) (k : Nat) : bitAt ((List.range 8).map b.getLsbD) k = b.getLsbD k := by
  by_cases hk : k < 8
  · simp [bitAt, hk]
  · rw [bitAt_of_length_le (by simpa using hk), BitVec.getLsbD_of_ge b k (by omega)]

/-- The number in a word's bytes has the bits of those bytes (R58, R59). -/
theorem testBit_packBytes (bs : List Byte) (k : Nat) : (packBytes bs).testBit k = bitAt (messageBits bs) k := by
  induction bs generalizing k with
  | nil => exact Nat.zero_testBit k
  | cons b bs ih =>
    have hvalue : packBytes (b :: bs) = 2 ^ 8 * packBytes bs + b.toNat := by
      rw [packBytes, Nat.add_comm]
      rfl
    rw [hvalue, Nat.testBit_two_pow_mul_add _ b.isLt, ih, messageBits_cons, bitAt_append, bitAt_byte_bits]
    simp only [List.length_map, List.length_range]
    rfl

/-- The word of a DIN write holds the bits of its eight bytes (R109). -/
theorem word_packBytes (bs : List Byte) : BitVec.ofNat 64 (packBytes bs) = wordOfBits (messageBits bs) :=
  BitVec.eq_of_getLsbD_eq fun z hz => by
    rw [getLsbD_wordOfBits _ hz, BitVec.getLsbD_ofNat, decide_eq_true hz, Bool.true_and, testBit_packBytes]

/-- The bits of FINAL's TAIL are those of its bytes (R78). -/
theorem getLsbD_tail (bs : List Byte) {z : Nat} (hz : z < 56) :
    (BitVec.ofNat 56 (packBytes bs)).getLsbD z = bitAt (messageBits bs) z := by
  rw [BitVec.getLsbD_ofNat, decide_eq_true hz, Bool.true_and, testBit_packBytes]

end Sys2Proof.Machine
end

section
/-! PROOFS. pad10*1 and the padded message (R105, R106, R111), and the block that FINAL absorbs (R110, R112). -/

namespace Sys2Proof.Machine

/-! ### Lengths -/

theorem rate_pos (f : SpongeFn) : 0 < f.rate := by
  cases f <;> decide

theorem rate_le (f : SpongeFn) : f.rate ≤ 1600 := by
  cases f <;> decide

theorem lanesPerBlock_pos (f : SpongeFn) : 0 < f.rate / 64 := by
  cases f <;> decide

theorem lanesPerBlock_le (f : SpongeFn) : f.rate / 64 ≤ 21 := by
  cases f <;> decide

/-- A suffix has 2 or 4 bits (R104), so with the first pad bit it stays in one byte. -/
theorem length_suffix_le (f : SpongeFn) : f.suffix.length ≤ 4 := by
  cases f <;> decide

/-- The number of zero bits of pad10*1 (R105), without a negative number. -/
theorem pad_zeros {r : Nat} (hr : 0 < r) (m : Nat) : ((-(m : Int) - 2) % (r : Int)).toNat = r - 1 - (m + 1) % r := by
  have hlt : (m + 1) % r < r := Nat.mod_lt _ hr
  have hmod := Nat.div_add_mod (m + 1) r
  have hcast : (m : Int) + 1 = r * ((m + 1) / r : Nat) + ((m + 1) % r : Nat) := by exact_mod_cast hmod.symm
  have hsplit : -(m : Int) - 2 = ((r - 1 - (m + 1) % r : Nat) : Int) + r * (-(((m + 1) / r : Nat) + 1)) := by
    rw [Nat.cast_sub (by omega), Nat.cast_sub (by omega)]
    push_cast at hcast ⊢
    linarith
  rw [hsplit, Int.add_mul_emod_self_left, Int.emod_eq_of_lt (by omega) (by omega), Int.toNat_natCast]

theorem length_pad101 (r m : Nat) : (pad101 r m).length = ((-(m : Int) - 2) % (r : Int)).toNat + 2 := by
  simp [pad101]

/-- The padding ends at the smallest multiple of r that leaves it two bits (R105). -/
theorem add_length_pad101 {r : Nat} (hr : 0 < r) (m : Nat) : m + (pad101 r m).length = ((m + 1) / r + 1) * r := by
  have hlt : (m + 1) % r < r := Nat.mod_lt _ hr
  have hmod := Nat.div_add_mod (m + 1) r
  have hmul : ((m + 1) / r + 1) * r = r * ((m + 1) / r) + r := by ring
  rw [length_pad101, pad_zeros hr, hmul]
  omega

/-- Behind a whole number of blocks, the padding is the same. -/
theorem pad101_mul_add {r : Nat} (hr : 0 < r) (q m : Nat) : pad101 r (q * r + m) = pad101 r m := by
  simp only [pad101, pad_zeros hr, Nat.add_assoc, Nat.mul_add_mod_self_right]

/-- The suffix and the padding after m bits that leave a byte free in the last block (R111). -/
theorem length_suffix_pad (f : SpongeFn) {m : Nat} (h : m + 8 ≤ f.rate) :
    m + (f.suffix ++ pad101 f.rate (m + f.suffix.length)).length = f.rate := by
  have hsuffix := length_suffix_le f
  have htotal := add_length_pad101 (rate_pos f) (m + f.suffix.length)
  rw [Nat.div_eq_of_lt (by omega)] at htotal
  rw [List.length_append]
  omega

/-- Settles O37: the suffix and the first pad bit never leave the byte after the message, so they open no further block. -/
theorem paddedMessageIsWholeBlocks : Obligations.PaddedMessageIsWholeBlocks := by
  intro f M
  have htotal := add_length_pad101 (rate_pos f) (8 * M.length + f.suffix.length)
  have hlength : (paddedMessage f M).length = ((8 * M.length + f.suffix.length + 1) / f.rate + 1) * f.rate := by
    rw [← htotal, paddedMessage, List.length_append, List.length_append, length_messageBits]
  have hblocks : (8 * M.length + f.suffix.length + 1) / f.rate = M.length / (8 * (f.rate / 64)) := by
    cases f <;> simp only [SpongeFn.rate, SpongeFn.suffix, List.length_cons, List.length_nil] <;> omega
  rw [hlength, hblocks]

/-! ### Bits -/

/-- The suffix byte holds the suffix and the first pad bit (R104). -/
theorem getLsbD_suffixByte (f : SpongeFn) (i : Nat) : (suffixByte f.num).getLsbD i = bitAt (f.suffix ++ [true]) i := by
  by_cases hi : i < 8
  · revert i
    cases f <;> decide
  · have hsuffix := length_suffix_le f
    rw [BitVec.getLsbD_of_ge _ i (by omega), bitAt_of_length_le (by rw [List.length_append, List.length_singleton]; omega)]

/-- A sequence, zeros and a 1: the 1 is the last bit. -/
theorem bitAt_zeros_one (T : Bits) (n i : Nat) :
    bitAt (T ++ (List.replicate n false ++ [true])) i = (bitAt T i ^^ decide (i + 1 = T.length + n + 1)) := by
  have hone (k : Nat) : bitAt [true] k = decide (k = 0) := by
    cases k <;> rfl
  by_cases hT : i < T.length
  · rw [bitAt_append, if_pos hT, decide_eq_false (by omega), Bool.xor_false]
  · rw [bitAt_append, if_neg hT, bitAt_append, bitAt_of_length_le (by omega : T.length ≤ i), Bool.false_xor, hone,
      bitAt_replicate_false, List.length_replicate]
    split
    · exact (decide_eq_false (by omega)).symm
    · exact decide_eq_decide.mpr (by omega)

/-- The suffix and the padding: the suffix byte, and the last pad bit at the end (R110, R111). -/
theorem bitAt_suffix_pad (f : SpongeFn) (r m i : Nat) :
    bitAt (f.suffix ++ pad101 r m) i =
      ((suffixByte f.num).getLsbD i ^^ decide (i + 1 = (f.suffix ++ pad101 r m).length)) := by
  have hsplit : f.suffix ++ pad101 r m =
      (f.suffix ++ [true]) ++ (List.replicate ((-(m : Int) - 2) % (r : Int)).toNat false ++ [true]) := by
    simp [pad101]
  have hlength : (f.suffix ++ pad101 r m).length = (f.suffix ++ [true]).length + ((-(m : Int) - 2) % (r : Int)).toNat + 1 := by
    rw [hsplit, List.length_append, List.length_append (as := List.replicate _ _), List.length_replicate, List.length_singleton]
    omega
  rw [hlength, hsplit, bitAt_zeros_one, getLsbD_suffixByte]

/-! ### The block FINAL absorbs -/

/-- The XOR of two states, lane by lane. -/
def xorLanes (L M : Lanes) : Lanes := Vector.zipWith (· ^^^ ·) L M

@[simp] theorem xorLanes_getElem (L M : Lanes) (j : Nat) (hj : j < 25) : (xorLanes L M)[j] = L[j] ^^^ M[j] :=
  Vector.getElem_zipWith ..

/-- The rest of the block at lane p: the last message bytes, the suffix and the padding, zeros where the block was filled before. -/
def finalBlock (f : SpongeFn) (p : Nat) (bs : List Byte) : Bits :=
  List.replicate (64 * p) false ++ messageBits bs ++ f.suffix ++ pad101 f.rate (64 * p + 8 * bs.length + f.suffix.length)

/-- The block leaves a byte or more for the suffix and the padding. -/
theorem finalBlock_room {f : SpongeFn} {p : Nat} {bs : List Byte} (hp : p < f.rate / 64) (hbs : bs.length < 8) :
    64 * p + 8 * bs.length + 8 ≤ f.rate := by
  have := rate_lanes f
  omega

section
variable {f : SpongeFn} {p : Nat} {bs : List Byte} (hp : p < f.rate / 64) (hbs : bs.length < 8)
include hp hbs

theorem length_finalBlock : (finalBlock f p bs).length = f.rate := by
  have hrest := length_suffix_pad f (finalBlock_room hp hbs)
  rw [finalBlock, List.append_assoc, List.length_append, List.length_append, List.length_replicate, length_messageBits]
  exact hrest

/-- The bits of the block: zeros, the bytes, the suffix byte, and the last bit. -/
theorem bitAt_finalBlock (k : Nat) :
    bitAt (finalBlock f p bs) k = ((if k < 64 * p then false
      else if k < 64 * p + 8 * bs.length then bitAt (messageBits bs) (k - 64 * p)
      else (suffixByte f.num).getLsbD (k - (64 * p + 8 * bs.length))) ^^ decide (k + 1 = f.rate)) := by
  have hroom := finalBlock_room hp hbs
  have hrest := length_suffix_pad f hroom
  have hzeros : (List.replicate (64 * p) false ++ messageBits bs).length = 64 * p + 8 * bs.length := by
    rw [List.length_append, List.length_replicate, length_messageBits]
  rw [finalBlock, List.append_assoc, bitAt_append, hzeros]
  by_cases hbytes : k < 64 * p + 8 * bs.length
  · rw [if_pos hbytes, bitAt_append, List.length_replicate, bitAt_replicate_false, if_pos hbytes,
      decide_eq_false (by omega : ¬ k + 1 = f.rate), Bool.xor_false]
  · have hend : k - (64 * p + 8 * bs.length) + 1 = (f.suffix ++ pad101 f.rate (64 * p + 8 * bs.length + f.suffix.length)).length ↔
        k + 1 = f.rate := by omega
    rw [if_neg hbytes, bitAt_suffix_pad, if_neg hbytes, if_neg (by omega : ¬ k < 64 * p)]
    simp only [hend]

/-- FINAL with the last message bytes XORs the rest of the block into the lanes (R111). -/
theorem padLanes_eq_xor {s : State} (hf : s.lfunc = f.num) (hptr : s.lptr.toNat = p) :
    padLanes (BitVec.ofNat 3 bs.length) (BitVec.ofNat 56 (packBytes bs)) s = xorLanes s.lanes (lanesOfBits (finalBlock f p bs)) := by
  refine lanes_ext_bits fun j hj z hz => ?_
  have hnb : (BitVec.ofNat 3 bs.length).toNat = bs.length := Nat.mod_eq_of_lt hbs
  have hrate := rate_lanes f
  have hlast : (decide (j + 1 = f.rate / 64) && decide (z = 63)) = decide (64 * j + z + 1 = f.rate) := by
    rw [← Bool.decide_and]
    exact decide_eq_decide.mpr (by omega)
  rw [getLsbD_padLanes hf _ _ hj hz, xorLanes_getElem, BitVec.getLsbD_xor, getLsbD_lanesOfBits _ hj hz, bitAt_finalBlock hp hbs,
    getLsbD_finalWord _ _ _ hz, hnb, hptr, hf, hlast, Bool.xor_assoc]
  congr 2
  obtain hbefore | rfl | hafter := Nat.lt_trichotomy j p
  · rw [decide_eq_false (Nat.ne_of_lt hbefore), if_pos (show 64 * j + z < 64 * p by omega), Bool.false_and]
  · rw [decide_eq_true rfl, Bool.true_and, if_neg (show ¬ 64 * j + z < 64 * j by omega)]
    by_cases hbyte : z < 8 * bs.length
    · rw [if_pos hbyte, if_pos (Nat.add_lt_add_left hbyte _), getLsbD_tail bs (by omega), Nat.add_sub_cancel_left]
    · rw [if_neg hbyte, if_neg (show ¬ 64 * j + z < 64 * j + 8 * bs.length by omega), Nat.add_sub_add_left]
  · rw [decide_eq_false (Nat.ne_of_gt hafter), Bool.false_and, if_neg (show ¬ 64 * j + z < 64 * p by omega),
      if_neg (show ¬ 64 * j + z < 64 * p + 8 * bs.length by omega), BitVec.getLsbD_of_ge _ _ (by omega)]

end

/-- Settles O34. -/
theorem finalRealisesPad101 : Obligations.FinalRealisesPad101 := by
  intro s f bs hs hb hphase hf hbs
  have hptr : s.lptr.toNat < f.rate / 64 := hs.lptr_lt_lanes hf
  refine ⟨length_finalBlock hptr hbs, _, exec_final_accepted _ _ hb hphase, fun j hj => ?_⟩
  have hlanes := padLanes_eq_xor hptr hbs hf rfl
  simp only [retire_lanes, padBlock, startPerm_lanes, hlanes, xorLanes_getElem]
  rfl

end Sys2Proof.Machine
end

section
/-! PROOFS. The squeezing loop of SPONGE in closed form: which bit of which state each output bit is (R107, R115, R116). -/

namespace Sys2Proof.Machine

/-- Output bit k: the states squeezed give r bits each (R107). -/
def outputBit (r : Nat) (S : Bits) (k : Nat) : Bool := bitAt (Nat.iterate keccakFBits (k / r) S) (k % r)

/-- The first m output bits. -/
def outputBitsUpTo (r : Nat) (S : Bits) (m : Nat) : Bits := (List.range m).map (outputBit r S)

@[simp] theorem length_outputBitsUpTo (r : Nat) (S : Bits) (m : Nat) : (outputBitsUpTo r S m).length = m := by
  simp [outputBitsUpTo]

theorem bitAt_outputBitsUpTo (r : Nat) (S : Bits) (m k : Nat) :
    bitAt (outputBitsUpTo r S m) k = (decide (k < m) && outputBit r S k) := by
  by_cases h : k < m <;> simp [outputBitsUpTo, bitAt, h]

theorem outputBitsUpTo_take (r : Nat) (S : Bits) {n m : Nat} (h : n ≤ m) :
    (outputBitsUpTo r S m).take n = outputBitsUpTo r S n := by
  rw [outputBitsUpTo, outputBitsUpTo, ← List.map_take, List.take_range, Nat.min_eq_left h]

theorem length_iterate_keccakFBits {S : Bits} (hS : S.length = 1600) (i : Nat) : (Nat.iterate keccakFBits i S).length = 1600 := by
  cases i with
  | zero => exact hS
  | succ i => rw [Function.iterate_succ_apply', length_keccakFBits]

section
variable {r : Nat} {S : Bits} (hr : 0 < r) (hle : r ≤ 1600) (hS : S.length = 1600)
include hr hle hS

/-- One state more gives one block more of output. -/
theorem outputBitsUpTo_add_block (i : Nat) :
    outputBitsUpTo r S (i * r + r) = outputBitsUpTo r S (i * r) ++ (Nat.iterate keccakFBits i S).take r := by
  have hstate := length_iterate_keccakFBits hS i
  refine bits_ext (by simp; omega) fun k hk => ?_
  rw [length_outputBitsUpTo] at hk
  rw [bitAt_append, length_outputBitsUpTo, bitAt_outputBitsUpTo, bitAt_outputBitsUpTo, bitAt_take, decide_eq_true hk,
    Bool.true_and]
  by_cases hbefore : k < i * r
  · rw [if_pos hbefore, decide_eq_true hbefore, Bool.true_and]
  · have hk' : k = r * i + (k - i * r) := by rw [Nat.mul_comm]; omega
    have hlast : k - i * r < r := by omega
    have hdiv : k / r = i := by rw [hk', Nat.mul_add_div hr, Nat.div_eq_of_lt hlast, Nat.add_zero]
    have hmod : k % r = k - i * r := by
      conv_lhs => rw [hk', Nat.mul_add_mod, Nat.mod_eq_of_lt hlast]
    rw [if_neg hbefore, decide_eq_true hlast, Bool.true_and, outputBit, hdiv, hmod]

/-- The loop, entered with the blocks of the states 0 to i, ends with n bits of output if its turns are enough. -/
theorem squeezeBits_take (n k i : Nat) (h : n ≤ i * r + r + k) :
    (squeezeBits r n k (Nat.iterate keccakFBits i S) (outputBitsUpTo r S (i * r + r))).take n = outputBitsUpTo r S n := by
  induction k generalizing i with
  | zero => exact outputBitsUpTo_take r S h
  | succ k ih =>
    rw [squeezeBits, length_outputBitsUpTo]
    split
    · have hmul : (i + 1) * r = i * r + r := Nat.succ_mul i r
      have hnext := outputBitsUpTo_add_block hr hle hS (i + 1)
      rw [hmul] at hnext
      rw [← Function.iterate_succ_apply' keccakFBits, ← hnext]
      simpa only [hmul] using ih (i + 1) (by omega)
    · exact outputBitsUpTo_take r S (by omega)

end

theorem length_absorbBlocks {S : Bits} (hS : S.length = 1600) (Ps : List Bits) : (absorbBlocks S Ps).length = 1600 := by
  induction Ps generalizing S with
  | nil => exact hS
  | cons P Ps ih => exact ih (length_keccakFBits _)

theorem length_absorbed (f : SpongeFn) (M : List Byte) : (absorbed f M).length = 1600 :=
  length_absorbBlocks List.length_replicate _

/-- SPONGE(f, M, n), bit by bit. -/
theorem sponge_eq (f : SpongeFn) (M : List Byte) (n : Nat) : sponge f M n = outputBitsUpTo f.rate (absorbed f M) n := by
  have hfirst := outputBitsUpTo_add_block (rate_pos f) (rate_le f) (length_absorbed f M) 0
  have hloop := squeezeBits_take (rate_pos f) (rate_le f) (length_absorbed f M) n n 0 (by omega)
  have hnone : outputBitsUpTo f.rate (absorbed f M) (0 * f.rate) = [] := by rw [Nat.zero_mul]; rfl
  rw [hfirst, hnone, List.nil_append] at hloop
  exact hloop

/-- Settles O38. -/
theorem spongeOutputHasItsLength : Obligations.SpongeOutputHasItsLength := by
  intro f M n
  rw [sponge_eq, length_outputBitsUpTo]

/-- Settles O39: an output bit does not depend on the length asked for. -/
theorem shorterOutputIsAPrefix : Obligations.ShorterOutputIsAPrefix := by
  intro f M n m h
  rw [sponge_eq, sponge_eq, outputBitsUpTo_take _ _ h]

end Sys2Proof.Machine
end

section
/-! PROOFS. A list of accesses with engine turns anywhere between them (R67): the block ends as it does where each access that
waits finds the engine done, up to engine turns. -/

namespace Sys2Proof.Machine

/-! ### The engine at rest -/

/-- Engine turns change lanes, BUSY and RND only (R95). -/
theorem engineTurns_frame (g : Nat) (s : State) :
    ∃ lanes busy rnd, Nat.iterate engineTurn g s = { s with lanes := lanes, busy := busy, rnd := rnd } := by
  induction g with
  | zero => exact ⟨_, _, _, rfl⟩
  | succ g ih =>
    obtain ⟨lanes, busy, rnd, heq⟩ := ih
    rw [Function.iterate_succ_apply', heq, engineTurn]
    split <;> exact ⟨_, _, _, rfl⟩

/-- The block when the engine has ended its permutation: the last round is the one at index 23, the distance of RND to it counted
upward modulo 32, so in a state no run reaches too. -/
@[irreducible] def settled (s : State) : State := Nat.iterate engineTurn ((23 - s.rnd).toNat + 1) s

theorem settled_ready {s : State} (hb : s.busy = false) : settled s = s := by
  rw [settled, engineTurns_ready _ s hb]

theorem settled_last {s : State} (hb : s.busy = true) (h : s.rnd = 23) :
    settled s = { s with lanes := keccakRound s.lanes 23, busy := false, rnd := 0 } := by
  rw [settled, h, ← engineTurn_last s hb h]
  rfl

/-- An engine turn is one of those that the block's permutation has left. -/
theorem settled_engineTurn (s : State) : settled (engineTurn s) = settled s := by
  cases hb : s.busy with
  | false => rw [engineTurn_ready s hb]
  | true =>
    by_cases hlast : s.rnd = 23
    · rw [settled_last hb hlast, engineTurn_last s hb hlast]
      exact settled_ready rfl
    · have hrnd : (engineTurn s).rnd = s.rnd + 1 := by rw [engineTurn_before_last s hb hlast]
      have hleft : (23 - (s.rnd + 1)).toNat + 1 = (23 - s.rnd).toNat := by bv_omega
      rw [settled, settled, hrnd, hleft, Function.iterate_succ_apply]

theorem settled_engineTurns (j : Nat) (s : State) : settled (Nat.iterate engineTurn j s) = settled s := by
  induction j with
  | zero => rfl
  | succ j ih => rw [Function.iterate_succ_apply', settled_engineTurn, ih]

@[simp] theorem settled_busy (s : State) : (settled s).busy = false := by
  induction hn : (23 - s.rnd).toNat generalizing s with
  | zero =>
    cases hb : s.busy with
    | false => rw [settled_ready hb, hb]
    | true => rw [settled_last hb (by bv_omega)]
  | succ n ih =>
    cases hb : s.busy with
    | false => rw [settled_ready hb, hb]
    | true =>
      have hne : s.rnd ≠ 23 := by bv_omega
      rw [← settled_engineTurn, engineTurn_before_last s hb hne]
      exact ih _ (show (23 - (s.rnd + 1)).toNat = n by bv_omega)

theorem settled_withEvents (s : State) (es : List Event) : settled { s with events := es } = { settled s with events := es } := by
  rw [settled, settled, engineTurns_withEvents]

/-- The end of a permutation changes lanes, BUSY and RND only. -/
theorem settled_frame (s : State) : settled s = { s with lanes := (settled s).lanes, busy := false, rnd := (settled s).rnd } := by
  obtain ⟨lanes, busy, rnd, heq⟩ : ∃ lanes busy rnd, settled s = { s with lanes := lanes, busy := busy, rnd := rnd } := by
    rw [settled]
    exact engineTurns_frame _ s
  have hbusy := settled_busy s
  rw [heq] at hbusy ⊢
  rw [← hbusy]

@[simp] theorem settled_phase (s : State) : (settled s).phase = s.phase := by rw [settled_frame]
@[simp] theorem settled_err (s : State) : (settled s).err = s.err := by rw [settled_frame]
@[simp] theorem settled_lptr (s : State) : (settled s).lptr = s.lptr := by rw [settled_frame]
@[simp] theorem settled_optr (s : State) : (settled s).optr = s.optr := by rw [settled_frame]
@[simp] theorem settled_lfunc (s : State) : (settled s).lfunc = s.lfunc := by rw [settled_frame]
@[simp] theorem settled_rem (s : State) : (settled s).rem = s.rem := by rw [settled_frame]
@[simp] theorem settled_func (s : State) : (settled s).func = s.func := by rw [settled_frame]
@[simp] theorem settled_outlen (s : State) : (settled s).outlen = s.outlen := by rw [settled_frame]
@[simp] theorem settled_events (s : State) : (settled s).events = s.events := by rw [settled_frame]
@[simp] theorem settled_reads (s : State) : (settled s).reads = s.reads := by rw [settled_frame]

/-- A permutation just started ends as KeccakF (R93, R94). -/
theorem settled_startPerm_lanes (s : State) : (settled (startPerm s)).lanes = keccakF s.lanes := by
  have hfinish : Nat.iterate engineTurn ((23 - (startPerm s).rnd).toNat + 1) (startPerm s) = finishPerm (startPerm s) :=
    (engineTurns_busy _ (startPerm s) rfl (Nat.zero_le 23)).1 (by rw [startPerm_rnd]; decide)
  rw [settled, hfinish]
  rfl

/-! ### One access -/

/-- What an instruction does to the block once its access completes: one that waits finds the engine at rest (R57). -/
def complete (s : State) (i : Instr) : State := if waits i then instrEffect i (settled s) else instrEffect i s

theorem complete_waits {i : Instr} (h : waits i = true) (s : State) : complete s i = instrEffect i (settled s) := if_pos h

/-! No effect takes account of the host's list. -/

section
variable (s : State) (es : List Event)

theorem recordErr_withEvents (c : ErrCode) : recordErr c { s with events := es } = { recordErr c s with events := es } := by
  simp only [recordErr_eq]

theorem withRoundIndex_withEvents (ir : BitVec 5) (f : Lanes → Lanes) :
    withRoundIndex ir (mapLanes f) { s with events := es } = { withRoundIndex ir (mapLanes f) s with events := es } := by
  unfold withRoundIndex
  split
  · rfl
  · exact recordErr_withEvents s es .arg

theorem initHash_withEvents : initHash { s with events := es } = { initHash s with events := es } := by
  have hrefusal : initRefusal { s with events := es } = initRefusal s := rfl
  rw [initHash, initHash, hrefusal]
  cases initRefusal s with
  | none => rfl
  | some c => exact recordErr_withEvents (abandon (clearErr s)) es c

theorem finalPad_withEvents (nb : BitVec 3) (tail : BitVec 56) :
    finalPad nb tail { s with events := es } = { finalPad nb tail s with events := es } := by
  unfold finalPad
  split
  · rfl
  · exact recordErr_withEvents s es .phase

theorem dinWrite_withEvents (v : Word) : dinWrite v { s with events := es } = { dinWrite v s with events := es } := by
  unfold dinWrite
  split
  · unfold absorbWord
    dsimp only
    split <;> rfl
  · exact recordErr_withEvents s es .phase

theorem doutRead_withEvents : doutRead { s with events := es } = { doutRead s with events := es } := by
  unfold doutRead
  split
  · unfold consumeWord
    dsimp only
    split
    · rfl
    · split <;> rfl
  · exact congrArg (respond 0) (recordErr_withEvents s es .phase)

theorem commandEffect_withEvents (i : Instr) : commandEffect i { s with events := es } = { commandEffect i s with events := es } := by
  cases i with
  | nop | permute | theta | rho | pi | chi | clrerr | sreset => rfl
  | init => exact initHash_withEvents s es
  | final nb tail => exact finalPad_withEvents s es nb tail
  | round ir | iota ir => exact withRoundIndex_withEvents s es ir _
  | rdId | wrCmd | rdStatus | rdMode | wrMode | rdOutlen | wrOutlen | wrDin | rdDout | rdRemain | rdLane | wrLane =>
    exact recordErr_withEvents s es .cmd

theorem instrEffect_withEvents (i : Instr) : instrEffect i { s with events := es } = { instrEffect i s with events := es } := by
  cases i with
  | nop | init | final | permute | round | theta | rho | pi | chi | iota | clrerr | sreset =>
    rw [instrEffect]
    exact commandEffect_withEvents s es _
  | rdId | rdStatus | rdMode | wrMode | rdOutlen | wrOutlen | rdRemain => rfl
  | wrCmd v =>
    rw [instrEffect]
    cases decodeCommand v with
    | ok i => exact commandEffect_withEvents s es i
    | error e => exact recordErr_withEvents s es _
  | wrDin v => exact dinWrite_withEvents s es v
  | rdDout => exact doutRead_withEvents s es
  | rdLane k =>
    rw [instrEffect]
    split
    · rfl
    · exact congrArg (respond 0) (recordErr_withEvents s es .addr)
  | wrLane k v =>
    rw [instrEffect]
    split
    · rfl
    · exact recordErr_withEvents s es .addr

theorem complete_withEvents (i : Instr) : complete { s with events := es } i = { complete s i with events := es } := by
  unfold complete
  rw [settled_withEvents]
  split <;> exact instrEffect_withEvents _ es i

end

/-! ### One access as a run -/

/-- The machine runs from one state to the other. -/
def Reaches (s t : State) : Prop := ∃ k, Host.Core.run Sys2Proof.core k s = .next t

theorem Reaches.refl (s : State) : Reaches s s := ⟨0, rfl⟩

theorem Reaches.trans {s t u : State} (hst : Reaches s t) (htu : Reaches t u) : Reaches s u := by
  obtain ⟨j, hj⟩ := hst
  obtain ⟨k, hk⟩ := htu
  exact ⟨j + k, (run_add j k s t hj).trans hk⟩

theorem Reaches.of_step {s t : State} (h : step s = .next t) : Reaches s t := ⟨1, run_succ 0 s t h⟩

/-- Where every step of a busy block with this list is the engine's, the block comes to rest. -/
theorem reaches_settled (es : List Event) (hstep : ∀ u : State, u.busy = true → u.events = es → step u = .next (engineStep u))
    (s : State) (hes : s.events = es) : Reaches s (settled s) := by
  suffices h : ∀ g (u : State), u.events = es → Reaches u (Nat.iterate engineTurn g u) by
    rw [settled]
    exact h _ s hes
  intro g
  induction g with
  | zero => exact fun u _ => .refl u
  | succ g ih =>
    intro u hu
    cases hb : u.busy with
    | false =>
      rw [engineTurns_ready _ u hb]
      exact .refl u
    | true =>
      have hturn : engineTurn u = engineStep u := by rw [engineTurn, hb, if_pos rfl]
      rw [Function.iterate_succ_apply, hturn]
      exact (Reaches.of_step (hstep u hb hu)).trans (ih (engineStep u) hu)

/-- The step at an issued instruction is the instruction, command or access. -/
theorem step_issue {s : State} {i : Instr} {rest : List Event} (hwf : i.wf = true) (hev : s.events = issue i :: rest) :
    step s = exec i s :=
  step_code_request s (encode i) rest i hev (decodeOfEncodeIsTheInstruction i hwf)

/-- An issued instruction completes, after the rounds left if it waits. -/
theorem reaches_complete {s : State} {i : Instr} {rest : List Event} (hwf : i.wf = true) (hev : s.events = issue i :: rest) :
    Reaches s { complete s i with events := rest } := by
  have hperform (u : State) (hu : u.events = issue i :: rest) (hready : waits i = true → u.busy = false) :
      Reaches u { instrEffect i u with events := rest } := by
    have hnext : step u = .next (retire (instrEffect i u)) := by
      rw [step_issue hwf hu, exec_eq, if_neg]
      rw [Bool.and_eq_true]
      exact fun ⟨hw, hb⟩ => Bool.false_ne_true ((hready hw).symm.trans hb)
    have hretire : retire (instrEffect i u) = { instrEffect i u with events := rest } := by
      rw [retire, instrEffect_events, hu, List.tail_cons]
    exact .of_step (hretire ▸ hnext)
  cases hw : waits i with
  | false =>
    rw [complete, hw, if_neg Bool.false_ne_true]
    exact hperform s hev (fun h => absurd (hw.symm.trans h) Bool.false_ne_true)
  | true =>
    have hheld (u : State) (hb : u.busy = true) (hu : u.events = issue i :: rest) : step u = .next (engineStep u) := by
      rw [step_issue hwf hu, exec_eq, hw, hb]
      rfl
    rw [complete_waits hw]
    exact (reaches_settled _ hheld s hev).trans (hperform _ ((settled_events s).trans hev) fun _ => settled_busy s)

/-- Engine turns before an access leave it the same effect, up to engine turns after it; a STATUS read alone sees them (R67). -/
theorem complete_engineTurns {i : Instr} (hwf : i.wf = true) (hne : i ≠ .rdStatus) (j : Nat) (s : State) :
    ∃ j', complete (Nat.iterate engineTurn j s) i = Nat.iterate engineTurn j' (complete s i) := by
  cases hw : waits i with
  | true => exact ⟨0, by rw [complete_waits hw, complete_waits hw, settled_engineTurns, Function.iterate_zero_apply]⟩
  | false =>
    have hblind := instrEffect_engineBlind i ((waits_of_wf i hwf).symm.trans hw) hne
    have hcomm : Function.Commute (instrEffect i) engineTurn := hblind.engineTurn_comm
    refine ⟨j, ?_⟩
    simp only [complete, hw, Bool.false_eq_true, if_false]
    exact hcomm.iterate_right j s

/-! ### A list of accesses -/

/-- The block after the accesses of a list of instructions, the engine at rest wherever one waits. -/
def completeAll (s : State) (is : List Instr) : State := is.foldl complete s

theorem completeAll_append (s : State) (is js : List Instr) : completeAll s (is ++ js) = completeAll (completeAll s is) js :=
  List.foldl_append

/-- Every interleaving of the engine with the accesses of a list (R67) runs to its end, and there the block is as after the
accesses alone, up to engine turns. -/
theorem reaches_completeAll (is : List Instr) (hok : ∀ i ∈ is, i.wf = true ∧ i ≠ .rdStatus) (es rest : List Event)
    (hes : withoutEngineTurns es = is.map issue) (j : Nat) (u : State) :
    ∃ j', Reaches { Nat.iterate engineTurn j u with events := es ++ rest }
      { Nat.iterate engineTurn j' (completeAll u is) with events := rest } := by
  induction es generalizing is j u with
  | nil =>
    obtain rfl : is = [] := List.map_eq_nil_iff.mp hes.symm
    exact ⟨j, .refl _⟩
  | cons e es ih =>
    by_cases he : e = .engine
    · subst he
      obtain ⟨j', hrest⟩ := ih is hok hes (j + 1) u
      have hturn := step_engine { Nat.iterate engineTurn j u with events := .engine :: (es ++ rest) } (es ++ rest) rfl
      rw [engineTurn_withEvents, ← Function.iterate_succ_apply' engineTurn] at hturn
      exact ⟨j', (Reaches.of_step hturn).trans hrest⟩
    · have hkept : withoutEngineTurns (e :: es) = e :: withoutEngineTurns es := List.filter_cons_of_pos (by simpa using he)
      rw [hkept] at hes
      obtain ⟨i, is, rfl, rfl, htail⟩ := List.map_eq_cons_iff.mp hes.symm
      obtain ⟨hwf, hne⟩ := hok i (List.mem_cons_self ..)
      have haccess := reaches_complete (s := { Nat.iterate engineTurn j u with events := issue i :: (es ++ rest) }) hwf rfl
      obtain ⟨j', hj⟩ := complete_engineTurns hwf hne j u
      obtain ⟨j'', hrest⟩ := ih is (fun i hi => hok i (List.mem_cons_of_mem _ hi)) htail.symm j' (complete u i)
      rw [complete_withEvents, hj] at haccess
      exact ⟨j'', haccess.trans hrest⟩

/-- Where the accesses end with BUSY = 0, the end is the same for every interleaving. -/
theorem reaches_completeAll_ready (is : List Instr) (hok : ∀ i ∈ is, i.wf = true ∧ i ≠ .rdStatus) (es rest : List Event)
    (hes : withoutEngineTurns es = is.map issue) (s : State) (hev : s.events = es ++ rest)
    (hb : (completeAll s is).busy = false) : Reaches s { completeAll s is with events := rest } := by
  obtain ⟨j, hrun⟩ := reaches_completeAll is hok es rest hes 0 s
  rw [engineTurns_ready j _ hb, Function.iterate_zero_apply, ← hev] at hrun
  exact hrun

end Sys2Proof.Machine
end

section
/-! PROOFS. Absorbing and squeezing lane by lane as SPONGE does block by block (R107, R112, R114). -/

namespace Sys2Proof.Machine

/-- A place in its block of r, one step on: within the block, or at the start of the next. -/
theorem succ_within_block {r i : Nat} (h : i % r + 1 < r) : (i + 1) / r = i / r ∧ (i + 1) % r = i % r + 1 := by
  have hplace : i + 1 = r * (i / r) + (i % r + 1) := by rw [← Nat.add_assoc, Nat.div_add_mod]
  constructor
  · rw [hplace, Nat.mul_add_div (by omega), Nat.div_eq_of_lt h, Nat.add_zero]
  · rw [hplace, Nat.mul_add_mod, Nat.mod_eq_of_lt h]

theorem succ_ends_block {r i : Nat} (h : i % r + 1 = r) : (i + 1) / r = i / r + 1 ∧ (i + 1) % r = 0 := by
  have hplace : i + 1 = r * (i / r + 1) := by
    have := Nat.div_add_mod i r
    rw [Nat.mul_succ]
    omega
  constructor
  · rw [hplace, Nat.mul_div_cancel_left _ (by omega)]
  · rw [hplace, Nat.mul_mod_right]

/-! ### Absorbing -/

/-- A block XORed into the state as a bit sequence is XORed into its lanes (R112). -/
theorem lanesOfBits_xorBlock {S P : Bits} (hS : S.length = 1600) (hP : P.length ≤ 1600) :
    lanesOfBits (xorBlock S P) = xorLanes (lanesOfBits S) (lanesOfBits P) := by
  have hfull : S.length = (P ++ List.replicate (1600 - P.length) false).length := by
    rw [List.length_append, List.length_replicate]
    omega
  have hzeros (k : Nat) : bitAt (P ++ List.replicate (1600 - P.length) false) k = bitAt P k := by
    rw [bitAt_append, bitAt_replicate_false]
    split
    · rfl
    · exact (bitAt_of_length_le (by omega)).symm
  refine lanes_ext_bits fun j hj z hz => ?_
  rw [xorLanes_getElem, BitVec.getLsbD_xor, getLsbD_lanesOfBits _ hj hz, getLsbD_lanesOfBits _ hj hz,
    getLsbD_lanesOfBits _ hj hz, xorBlock, bitAt_zipWith_xor hfull, hzeros]

section
variable (f : SpongeFn) (P : Bits)

/-- The state after the first q blocks (R107). -/
def absorbedState (q : Nat) : Bits := absorbBlocks (List.replicate 1600 false) ((blocks f.rate P).take q)

theorem length_absorbedState (q : Nat) : (absorbedState f P q).length = 1600 := length_absorbBlocks List.length_replicate _

/-- One block more (R107). -/
theorem absorbedState_succ {q : Nat} (hq : q < P.length / f.rate) :
    absorbedState f P (q + 1) = keccakFBits (xorBlock (absorbedState f P q) ((P.drop (q * f.rate)).take f.rate)) := by
  have htake {n : Nat} (hn : n ≤ P.length / f.rate) :
      (blocks f.rate P).take n = (List.range n).map fun k => (P.drop (k * f.rate)).take f.rate := by
    rw [blocks, ← List.map_take, List.take_range, Nat.min_eq_left hn]
  simp only [absorbedState, htake hq, htake (Nat.le_of_lt hq), List.range_succ, List.map_append, List.map_singleton, absorbBlocks,
    List.foldl_append, List.foldl_cons, List.foldl_nil]

/-- The lanes after q blocks and the first p words of the next (R112). -/
def partAbsorbed (q p : Nat) : Lanes :=
  xorLanes (lanesOfBits (absorbedState f P q)) (lanesOfBits ((P.drop (q * f.rate)).take (64 * p)))

theorem partAbsorbed_zero (q : Nat) : partAbsorbed f P q 0 = lanesOfBits (absorbedState f P q) := by
  refine lanes_ext_bits fun j hj z hz => ?_
  rw [partAbsorbed, xorLanes_getElem, BitVec.getLsbD_xor, getLsbD_lanesOfBits _ hj hz, getLsbD_lanesOfBits _ hj hz, Nat.mul_zero,
    List.take_zero, bitAt_nil, Bool.xor_false]

/-- One word more. -/
theorem xorLane_partAbsorbed (q : Nat) {p : Nat} (hp : p < 25) :
    xorLane (partAbsorbed f P q p) (BitVec.ofNat 5 p) (wordOfBits ((P.drop (q * f.rate + 64 * p)).take 64)) =
      partAbsorbed f P q (p + 1) := by
  have hptr : (BitVec.ofNat 5 p).toNat = p := Nat.mod_eq_of_lt (by omega)
  refine lanes_ext_bits fun j hj z hz => ?_
  rw [xorLane_getElem, hptr]
  by_cases h : p = j
  · subst h
    simp only [if_true, partAbsorbed, xorLanes_getElem, BitVec.getLsbD_xor, getLsbD_lanesOfBits _ hj hz, getLsbD_wordOfBits _ hz,
      bitAt_take, bitAt_drop, Nat.add_assoc]
    rw [decide_eq_false (by omega), decide_eq_true (by omega), decide_eq_true (by omega), Bool.false_and, Bool.xor_false]
  · have hsame : 64 * j + z < 64 * p ↔ 64 * j + z < 64 * (p + 1) := by omega
    simp only [if_neg h, partAbsorbed, xorLanes_getElem, BitVec.getLsbD_xor, getLsbD_lanesOfBits _ hj hz, bitAt_take, hsame]

/-- The permutation after the last word of a block. -/
theorem keccakF_partAbsorbed {q : Nat} (hq : q < P.length / f.rate) :
    keccakF (partAbsorbed f P q (f.rate / 64)) = partAbsorbed f P (q + 1) 0 := by
  have hblock : ((P.drop (q * f.rate)).take f.rate).length ≤ 1600 :=
    (List.length_take_le _ _).trans (rate_le f)
  rw [partAbsorbed_zero, absorbedState_succ f P hq, lanesOfBits_keccakFBits,
    lanesOfBits_xorBlock (length_absorbedState f P q) hblock, partAbsorbed, ← rate_lanes]

end

/-! ### The padded message, word by word -/

section
variable (f : SpongeFn) (M : List Byte)

/-- Word k of the message, as DIN is given it (R59, R118). -/
def messageWord (k : Nat) : Word := BitVec.ofNat 64 (packBytes ((M.drop (8 * k)).take 8))

theorem messageWord_eq {k : Nat} (hk : k < M.length / 8) :
    messageWord M k = wordOfBits (((paddedMessage f M).drop (64 * k)).take 64) := by
  have hlength := length_messageBits M
  have hmul : 8 * (8 * k) = 64 * k := by omega
  rw [messageWord, word_packBytes, messageBits_take, messageBits_drop, hmul, paddedMessage, List.append_assoc,
    List.drop_append_of_le_length (by omega), List.take_append_of_le_length (by rw [List.length_drop]; omega)]

/-- The place of word k in bits, by its block and its lane (R60). -/
theorem words_div (k : Nat) : k / (f.rate / 64) * f.rate + 64 * (k % (f.rate / 64)) = 64 * k := by
  have hmod := Nat.div_add_mod k (f.rate / 64)
  rw [rate_lanes f, Nat.mul_div_cancel_left _ (by decide)]
  calc k / (f.rate / 64) * (64 * (f.rate / 64)) + 64 * (k % (f.rate / 64))
      = 64 * (f.rate / 64 * (k / (f.rate / 64)) + k % (f.rate / 64)) := by ring
    _ = 64 * k := by rw [hmod]

theorem length_paddedMessage_div :
    (paddedMessage f M).length / f.rate = M.length / 8 / (f.rate / 64) + 1 := by
  rw [paddedMessageIsWholeBlocks f M, Nat.mul_div_cancel _ (rate_pos f), Nat.div_div_eq_div_mul]

/-- What the padded message holds after the whole words of the message (R106, R118). -/
theorem paddedMessage_drop_words :
    (paddedMessage f M).drop (64 * (M.length / 8)) =
      messageBits (M.drop (8 * (M.length / 8))) ++ (f.suffix ++ pad101 f.rate (8 * M.length + f.suffix.length)) := by
  have hmul : 64 * (M.length / 8) = 8 * (8 * (M.length / 8)) := by omega
  rw [messageBits_drop, ← hmul, paddedMessage, List.append_assoc,
    List.drop_append_of_le_length (by rw [length_messageBits]; omega)]

/-- FINAL's block ends the block that the last whole words began (R111). -/
theorem xorLanes_finalBlock :
    xorLanes (partAbsorbed f (paddedMessage f M) (M.length / 8 / (f.rate / 64)) (M.length / 8 % (f.rate / 64)))
      (lanesOfBits (finalBlock f (M.length / 8 % (f.rate / 64)) (M.drop (8 * (M.length / 8))))) =
      partAbsorbed f (paddedMessage f M) (M.length / 8 / (f.rate / 64)) (f.rate / 64) := by
  generalize hq : M.length / 8 / (f.rate / 64) = q
  generalize hp : M.length / 8 % (f.rate / 64) = p
  have hwords : q * f.rate + 64 * p = 64 * (M.length / 8) := by rw [← hq, ← hp]; exact words_div f _
  have hplt : 64 * p < f.rate := by
    have hlt : p < f.rate / 64 := hp ▸ Nat.mod_lt _ (lanesPerBlock_pos f)
    have := rate_lanes f
    omega
  have hpad : pad101 f.rate (8 * M.length + f.suffix.length) =
      pad101 f.rate (64 * p + 8 * (M.drop (8 * (M.length / 8))).length + f.suffix.length) := by
    rw [← pad101_mul_add (rate_pos f) q (64 * p + _ + _), List.length_drop]
    congr 1
    omega
  have hlength : (paddedMessage f M).length = q * f.rate + f.rate := by
    rw [paddedMessageIsWholeBlocks f M, ← Nat.div_div_eq_div_mul, hq, Nat.succ_mul]
  have hblock (k : Nat) : bitAt (finalBlock f p (M.drop (8 * (M.length / 8)))) k =
      if k < 64 * p then false else bitAt (paddedMessage f M) (q * f.rate + k) := by
    rw [finalBlock, List.append_assoc, List.append_assoc, ← hpad, ← paddedMessage_drop_words, bitAt_append, List.length_replicate,
      bitAt_replicate_false, bitAt_drop, ← hwords]
    split
    · rfl
    · congr 1
      omega
  refine lanes_ext_bits fun j hj z hz => ?_
  simp only [partAbsorbed, xorLanes_getElem, BitVec.getLsbD_xor, getLsbD_lanesOfBits _ hj hz, bitAt_take, bitAt_drop, hblock,
    Bool.xor_assoc, ← rate_lanes]
  congr 1
  by_cases hbefore : 64 * j + z < 64 * p
  · rw [decide_eq_true hbefore, if_pos hbefore, decide_eq_true (by omega), Bool.xor_false]
  · rw [decide_eq_false hbefore, if_neg hbefore, Bool.false_and, Bool.false_xor]
    by_cases hin : 64 * j + z < f.rate
    · rw [decide_eq_true hin, Bool.true_and]
    · rw [bitAt_of_length_le (by omega), Bool.and_false]

/-- After the last block the state is the one SPONGE squeezes first (R107). -/
theorem absorbedState_all : absorbedState f (paddedMessage f M) (M.length / 8 / (f.rate / 64) + 1) = absorbed f M := by
  rw [absorbedState, ← length_paddedMessage_div, List.take_of_length_le (by simp [blocks]), absorbed]

end

/-! ### Squeezing -/

/-- The word of output bits 64i to 64i + 63, zeros beyond bit n (R114). -/
def outputWordAt (f : SpongeFn) (M : List Byte) (n i : Nat) : Word := wordOfBits (((sponge f M n).drop (64 * i)).take 64)

/-- The lanes that give output word i (R114). -/
def squeezedLanes (f : SpongeFn) (M : List Byte) (i : Nat) : Lanes :=
  Nat.iterate keccakF (i / (f.rate / 64)) (lanesOfBits (absorbed f M))

/-- Output word i is the lane i mod RL of the state squeezed by then, as far as output is due (R114). -/
theorem getLsbD_outputWordAt (f : SpongeFn) (M : List Byte) (n i : Nat) (h : i % (f.rate / 64) < 25) {z : Nat} (hz : z < 64) :
    (outputWordAt f M n i).getLsbD z =
      (decide (z < n - 64 * i) && (squeezedLanes f M i)[i % (f.rate / 64)].getLsbD z) := by
  have hlane : i % (f.rate / 64) < f.rate / 64 := Nat.mod_lt _ (lanesPerBlock_pos f)
  have hrate := rate_lanes f
  have hplace : 64 * i + z = f.rate * (i / (f.rate / 64)) + (64 * (i % (f.rate / 64)) + z) := by
    have := words_div f i
    rw [Nat.mul_comm] at this
    omega
  have hlt : 64 * (i % (f.rate / 64)) + z < f.rate := by omega
  have hdiv : (64 * i + z) / f.rate = i / (f.rate / 64) := by
    rw [hplace, Nat.mul_add_div (rate_pos f), Nat.div_eq_of_lt hlt, Nat.add_zero]
  have hmod : (64 * i + z) % f.rate = 64 * (i % (f.rate / 64)) + z := by
    rw [hplace, Nat.mul_add_mod, Nat.mod_eq_of_lt hlt]
  have hdue : 64 * i + z < n ↔ z < n - 64 * i := by omega
  rw [outputWordAt, getLsbD_wordOfBits _ hz, bitAt_take, decide_eq_true hz, Bool.true_and, bitAt_drop, sponge_eq,
    bitAt_outputBitsUpTo, outputBit, hdiv, hmod, squeezedLanes, ← lanesOfBits_iterate_keccakFBits, getLsbD_lanesOfBits _ h hz]
  simp only [hdue]

end Sys2Proof.Machine
end

section
/-! PROOFS. The procedure `hash` (R118): what the block holds after each of its accesses, and what they read. -/

namespace Sys2Proof.Machine

/-! ### The accesses -/

/-- The accesses that begin a hash: MODE, OUTLEN for an XOF, INIT (R118). -/
def openingInstrs (f : SpongeFn) (n : Nat) : List Instr :=
  [.wrMode (f.num.setWidth 64)] ++ (if isXof f.num then [.wrOutlen (BitVec.ofNat 64 n)] else []) ++ [.init]

/-- The first k DIN writes of a message (R118). -/
def dinInstrs (M : List Byte) (k : Nat) : List Instr := (List.range k).map fun i => .wrDin (messageWord M i)

/-- FINAL with the message bytes after the last whole word (R118). -/
def finalInstr (bs : List Byte) : Instr := .final (BitVec.ofNat 3 bs.length) (BitVec.ofNat 56 (packBytes bs))

/-- The procedure `hash f, M, n` as instructions (R118). -/
def hashInstrs (f : SpongeFn) (M : List Byte) (n : Nat) : List Instr :=
  openingInstrs f n ++ dinInstrs M (M.length / 8) ++ [finalInstr (M.drop (8 * (M.length / 8)))] ++
    List.replicate (outputWords n) .rdDout

theorem hashProcedure_eq_issue (f : SpongeFn) (M : List Byte) (n : Nat) : hashProcedure f M n = (hashInstrs f M n).map issue := by
  have hopening : (openingInstrs f n).map issue = [wrReg .mode (f.num.setWidth 64)]
      ++ (if isXof f.num then [wrReg .outlen (BitVec.ofNat 64 n)] else []) ++ [issue .init] := by
    cases f <;> rfl
  have hdin : (dinInstrs M (M.length / 8)).map issue = dinWrites M := List.map_map
  rw [hashInstrs, List.map_append, List.map_append, List.map_append, List.map_replicate, hopening, hdin]
  rfl

theorem hashInstrs_wf (f : SpongeFn) (M : List Byte) (n : Nat) (i : Instr) (hi : i ∈ hashInstrs f M n) :
    i.wf = true ∧ i ≠ .rdStatus := by
  simp only [hashInstrs, openingInstrs, dinInstrs, List.mem_append, List.mem_singleton, List.mem_map, List.mem_replicate] at hi
  obtain ((((rfl | hxof) | rfl) | ⟨k, -, rfl⟩) | rfl) | ⟨-, rfl⟩ := hi
  case inl.inl.inl.inl.inr =>
    split at hxof
    · rw [List.mem_singleton.mp hxof]
      exact ⟨rfl, nofun⟩
    · cases hxof
  all_goals exact ⟨rfl, nofun⟩

/-! ### The opening -/

/-- What the block holds in a hash of f: its phase, p words into the block absorbed, q words out of the block squeezed, m bits due,
the words R read, and the lanes L once the engine is at rest. -/
structure Hashing (f : SpongeFn) (phase : Phase) (p q m : Nat) (R : List Word) (L : Lanes) (s : State) : Prop where
  lanes : (settled s).lanes = L
  phase : s.phase = phase
  err : s.err = 0
  lptr : s.lptr.toNat = p
  optr : s.optr.toNat = q
  lfunc : s.lfunc = f.num
  rem : s.rem.toNat = m
  reads : s.reads = R

theorem Hashing.settle {f : SpongeFn} {phase : Phase} {p q m : Nat} {R : List Word} {L : Lanes} {s : State}
    (h : Hashing f phase p q m R L s) : Hashing f phase p q m R L (settled s) := by
  obtain ⟨hlanes, hphase, herr, hlptr, hoptr, hlfunc, hrem, hreads⟩ := h
  constructor <;> simpa only [settled_ready (settled_busy s), settled_phase, settled_err, settled_lptr, settled_optr,
    settled_lfunc, settled_rem, settled_reads]

theorem Hashing.rateLanes_eq {f : SpongeFn} {phase : Phase} {p q m : Nat} {R : List Word} {L : Lanes} {s : State}
    (h : Hashing f phase p q m R L s) : (rateLanes s.lfunc).toNat = f.rate / 64 := by
  rw [h.lfunc, rateLanes_num]

/-- REM after a word of 64 bits is taken. -/
theorem Hashing.rem_left {f : SpongeFn} {phase : Phase} {p q m : Nat} {R : List Word} {L : Lanes} {s : State}
    (h : Hashing f phase p q m R L s) : (BitVec.ofNat 64 (s.rem.toNat - 64)).toNat = m - 64 := by
  rw [← h.rem]
  bv_omega

theorem admits_range {f : SpongeFn} {n : Nat} (hn : f.admits n = true) : 0 < n ∧ n < 2 ^ 64 := by
  cases f with
  | sha3_224 | sha3_256 | sha3_384 | sha3_512 =>
    obtain rfl := of_decide_eq_true hn
    decide
  | shake128 | shake256 => simpa [SpongeFn.admits, SpongeFn.digestBits, Nat.succ_le_iff] using hn

/-- The length latched is the length asked for (R104, R108). -/
theorem latchedLength_toNat {f : SpongeFn} {n : Nat} (hn : f.admits n = true) {outlen : Word}
    (hout : isXof f.num = true → outlen = BitVec.ofNat 64 n) : (latchedLength f outlen).toNat = n := by
  cases f with
  | sha3_224 | sha3_256 | sha3_384 | sha3_512 =>
    obtain rfl := of_decide_eq_true hn
    rfl
  | shake128 | shake256 =>
    obtain rfl := hout rfl
    exact Nat.mod_eq_of_lt (admits_range hn).2

/-- INIT begins the hash in any state with the function in MODE and, for an XOF, the length in OUTLEN. -/
theorem hashing_init {f : SpongeFn} {n : Nat} (hn : f.admits n = true) {s : State} (hf : s.func = f.num)
    (hout : isXof f.num = true → s.outlen = BitVec.ofNat 64 n) :
    Hashing f .absorb 0 0 n s.reads (Vector.replicate 25 0) (complete s .init) := by
  have hfunc : (settled s).func = f.num := (settled_func s).trans hf
  have houtlen (hxof : isXof f.num = true) : (settled s).outlen = BitVec.ofNat 64 n := (settled_outlen s).trans (hout hxof)
  have hdue : isXof f.num = true → (settled s).outlen ≠ 0 := by
    intro hxof hzero
    have hrange := admits_range hn
    rw [houtlen hxof] at hzero
    bv_omega
  have heq : complete s .init = beginHash (clearErr (settled s)) := initHash_accepted hfunc hdue
  have hready : (beginHash (clearErr (settled s))).busy = false := settled_busy s
  have hrem : (beginHash (clearErr (settled s))).rem = latchedLength f (settled s).outlen := beginHash_rem_num hfunc
  rw [heq]
  refine ⟨?_, rfl, rfl, rfl, rfl, hfunc, ?_, settled_reads s⟩
  · rw [settled_ready hready, beginHash_lanes]
  · rw [hrem, latchedLength_toNat hn houtlen]

theorem hashing_opening {f : SpongeFn} {n : Nat} (hn : f.admits n = true) (s : State) :
    Hashing f .absorb 0 0 n s.reads (Vector.replicate 25 0) (completeAll s (openingInstrs f n)) := by
  have hfunc : (f.num.setWidth 64).extractLsb' 0 3 = f.num := by
    cases f <;> rfl
  cases hxof : isXof f.num with
  | true =>
    rw [openingInstrs, hxof]
    exact hashing_init (s := { s with func := (f.num.setWidth 64).extractLsb' 0 3, outlen := BitVec.ofNat 64 n }) hn hfunc
      fun _ => rfl
  | false =>
    rw [openingInstrs, hxof]
    exact hashing_init (s := { s with func := (f.num.setWidth 64).extractLsb' 0 3 }) hn hfunc
      fun h => absurd (hxof.symm.trans h) Bool.false_ne_true

/-! ### Absorbing -/

theorem eq_ofNat_of_toNat {p : BitVec 5} {k : Nat} (h : p.toNat = k) : p = BitVec.ofNat 5 k := by
  rw [← h, BitVec.ofNat_toNat, BitVec.setWidth_eq]

/-- A pointer below RL advances by one. -/
theorem succ_toNat {f : SpongeFn} {p : BitVec 5} {k : Nat} (h : p.toNat = k) (hk : k < f.rate / 64) : (p + 1).toNat = k + 1 := by
  have := lanesPerBlock_le f
  bv_omega

section
variable {f : SpongeFn} {p q m : Nat} {R : List Word} {L : Lanes} {s : State} (h : Hashing f .absorb p q m R L s)
include h

theorem Hashing.complete_din (v : Word) : complete s (.wrDin v) = absorbWord v (settled s) := by
  rw [complete_waits rfl, instrEffect, dinWrite, if_pos h.settle.phase]

/-- A DIN write that leaves its block open (R109). -/
theorem Hashing.din_open (v : Word) (hp : p + 1 < f.rate / 64) :
    Hashing f .absorb (p + 1) q m R (xorLane L (BitVec.ofNat 5 p) v) (complete s (.wrDin v)) := by
  have hs := h.settle
  have hopen : (settled s).lptr.toNat + 1 < (rateLanes (settled s).lfunc).toNat := by rwa [hs.lptr, hs.rateLanes_eq]
  rw [h.complete_din, absorbWord_open v hopen]
  refine { hs with lanes := ?_, lptr := succ_toNat hs.lptr (Nat.lt_of_succ_lt hp) }
  rw [settled_ready (by exact settled_busy s), h.lanes, eq_ofNat_of_toNat hs.lptr]

/-- The DIN write that completes its block: the permutation is started, and ends before the next access (R109). -/
theorem Hashing.din_full (v : Word) (hp : p + 1 = f.rate / 64) :
    Hashing f .absorb 0 q m R (keccakF (xorLane L (BitVec.ofNat 5 p) v)) (complete s (.wrDin v)) := by
  have hs := h.settle
  have hfull : (settled s).lptr.toNat + 1 = (rateLanes (settled s).lfunc).toNat := by rwa [hs.lptr, hs.rateLanes_eq]
  have hlanes := settled_startPerm_lanes { settled s with lanes := xorLane (settled s).lanes (settled s).lptr v, lptr := 0 }
  rw [h.complete_din, absorbWord_full v hfull, ← h.lanes, ← eq_ofNat_of_toNat hs.lptr]
  exact { hs with lanes := hlanes, lptr := rfl }

end

/-- The zero state is the one absorbed into first (R107). -/
theorem partAbsorbed_start (f : SpongeFn) (P : Bits) : partAbsorbed f P 0 0 = Vector.replicate 25 0 := by
  rw [partAbsorbed_zero]
  refine lanes_ext_bits fun j hj z hz => ?_
  rw [getLsbD_lanesOfBits _ hj hz, absorbedState, List.take_zero, absorbBlocks, List.foldl_nil, bitAt_replicate_false]
  simp

/-- After k DIN writes of the message's words, k words of the padded message are in (R112). -/
theorem hashing_dinInstrs {f : SpongeFn} {M : List Byte} {n : Nat} {R : List Word} {s : State}
    (h : Hashing f .absorb 0 0 n R (Vector.replicate 25 0) s) {k : Nat} (hk : k ≤ M.length / 8) :
    Hashing f .absorb (k % (f.rate / 64)) 0 n R
      (partAbsorbed f (paddedMessage f M) (k / (f.rate / 64)) (k % (f.rate / 64))) (completeAll s (dinInstrs M k)) := by
  induction k with
  | zero =>
    rw [Nat.zero_div, Nat.zero_mod, partAbsorbed_start]
    exact h
  | succ k ih =>
    have hlt : k % (f.rate / 64) < f.rate / 64 := Nat.mod_lt _ (lanesPerBlock_pos f)
    have hle := lanesPerBlock_le f
    have hone : completeAll s (dinInstrs M (k + 1)) = complete (completeAll s (dinInstrs M k)) (.wrDin (messageWord M k)) := by
      rw [dinInstrs, List.range_succ, List.map_append, completeAll_append]
      rfl
    have hword := xorLane_partAbsorbed f (paddedMessage f M) (k / (f.rate / 64)) (show k % (f.rate / 64) < 25 by omega)
    rw [words_div, ← messageWord_eq f M (by omega)] at hword
    rw [hone]
    obtain hopen | hfull := Nat.lt_or_eq_of_le (show k % (f.rate / 64) + 1 ≤ f.rate / 64 from hlt)
    · have hnext := (ih (by omega)).din_open (messageWord M k) hopen
      obtain ⟨hdiv, hmod⟩ := succ_within_block hopen
      rw [hword] at hnext
      rwa [hdiv, hmod]
    · have hnext := (ih (by omega)).din_full (messageWord M k) hfull
      obtain ⟨hdiv, hmod⟩ := succ_ends_block hfull
      have hblock : k / (f.rate / 64) < (paddedMessage f M).length / f.rate := by
        rw [length_paddedMessage_div]
        exact Nat.lt_succ_of_le (Nat.div_le_div_right (by omega))
      rw [hword, hfull, keccakF_partAbsorbed f _ hblock] at hnext
      rwa [hdiv, hmod]

/-! ### Squeezing -/

/-- FINAL ends the last block, and the permutation after it ends the absorption (R110, R111). -/
theorem hashing_final {f : SpongeFn} {M : List Byte} {n : Nat} {R : List Word} {s : State}
    (h : Hashing f .absorb (M.length / 8 % (f.rate / 64)) 0 n R
      (partAbsorbed f (paddedMessage f M) (M.length / 8 / (f.rate / 64)) (M.length / 8 % (f.rate / 64))) s) :
    Hashing f .squeeze 0 0 n R (lanesOfBits (absorbed f M)) (complete s (finalInstr (M.drop (8 * (M.length / 8))))) := by
  have hs := h.settle
  have hroom : (M.drop (8 * (M.length / 8))).length < 8 := by
    rw [List.length_drop]
    omega
  have hblock : M.length / 8 / (f.rate / 64) < (paddedMessage f M).length / f.rate := by
    rw [length_paddedMessage_div]
    exact Nat.lt_succ_self _
  have hpad := padLanes_eq_xor (Nat.mod_lt _ (lanesPerBlock_pos f)) hroom hs.lfunc hs.lptr
  rw [h.lanes, xorLanes_finalBlock] at hpad
  rw [finalInstr, complete_waits rfl, instrEffect, commandEffect, finalPad, if_pos hs.phase, padBlock, hpad, ← absorbedState_all,
    ← partAbsorbed_zero, ← keccakF_partAbsorbed f _ hblock]
  exact { hs with lanes := settled_startPerm_lanes _, phase := rfl, lptr := rfl, optr := rfl }

section
variable {f : SpongeFn} {q m : Nat} {R : List Word} {L : Lanes} {s : State} (h : Hashing f .squeeze 0 q m R L s)
include h

theorem Hashing.complete_dout : complete s .rdDout = respond (outputWord (settled s)) (consumeWord (settled s)) := by
  rw [complete_waits rfl, instrEffect, doutRead, if_pos h.settle.phase]

/-- The word read is the one whose bits are those of the lane at OPTR, as far as output is due (R113). -/
theorem Hashing.outputWord_eq {w : Word} (hq : q < 25)
    (hw : ∀ z, z < 64 → w.getLsbD z = (decide (z < m) && L[q].getLsbD z)) : outputWord (settled s) = w := by
  refine BitVec.eq_of_getLsbD_eq fun z hz => ?_
  obtain ⟨-, -, -, -, hoptr, -, hrem, -⟩ := h.settle
  have hlanes := h.lanes
  subst hoptr hlanes hrem
  rw [hw z hz, getLsbD_outputWord hq hz]

section
variable {w : Word} (hw : outputWord (settled s) = w)
include hw

/-- A DOUT read that leaves output due in its block (R113). -/
theorem Hashing.dout_open (hm : 64 < m) (hq : q + 1 < f.rate / 64) :
    Hashing f .squeeze 0 (q + 1) (m - 64) (R ++ [w]) L (complete s .rdDout) := by
  have hs := h.settle
  have hopen : (settled s).optr.toNat + 1 < (rateLanes (settled s).lfunc).toNat := by rwa [hs.optr, hs.rateLanes_eq]
  rw [h.complete_dout, hw, consumeWord_open (hs.rem.symm ▸ hm) hopen]
  refine { hs with
    lanes := ?_, optr := succ_toNat hs.optr (Nat.lt_of_succ_lt hq), rem := hs.rem_left, reads := congrArg (· ++ [w]) hs.reads }
  rw [settled_ready (by exact settled_busy s)]
  exact h.lanes

/-- A DOUT read that empties its block with output due: the permutation is started, and ends before the next access (R113). -/
theorem Hashing.dout_emptied (hm : 64 < m) (hq : q + 1 = f.rate / 64) :
    Hashing f .squeeze 0 0 (m - 64) (R ++ [w]) (keccakF L) (complete s .rdDout) := by
  have hs := h.settle
  have hfull : (settled s).optr.toNat + 1 = (rateLanes (settled s).lfunc).toNat := by rwa [hs.optr, hs.rateLanes_eq]
  have hlanes := settled_startPerm_lanes (respond w
    { settled s with rem := BitVec.ofNat 64 ((settled s).rem.toNat - 64), optr := 0 })
  rw [h.complete_dout, hw, consumeWord_emptied (hs.rem.symm ▸ hm) hfull, ← h.lanes]
  exact { hs with lanes := hlanes, optr := rfl, rem := hs.rem_left, reads := congrArg (· ++ [w]) hs.reads }

/-- The last DOUT read ends the hash and starts nothing (R113). -/
theorem Hashing.dout_last (hm : m ≤ 64) (hq : q < f.rate / 64) :
    Hashing f .done 0 (q + 1) 0 (R ++ [w]) L (complete s .rdDout) ∧ (complete s .rdDout).busy = false := by
  have hs := h.settle
  rw [h.complete_dout, hw, consumeWord_last (hs.rem.symm ▸ hm)]
  refine ⟨{ hs with
    lanes := ?_, phase := rfl, optr := succ_toNat hs.optr hq, rem := rfl, reads := congrArg (· ++ [w]) hs.reads }, settled_busy s⟩
  rw [settled_ready (by exact settled_busy s)]
  exact h.lanes

end

end

/-- Output words 0 to k - 1. -/
def outputWordsUpTo (f : SpongeFn) (M : List Byte) (n k : Nat) : List Word := (List.range k).map (outputWordAt f M n)

theorem outputWordsUpTo_succ (f : SpongeFn) (M : List Byte) (n k : Nat) :
    outputWordsUpTo f M n (k + 1) = outputWordsUpTo f M n k ++ [outputWordAt f M n k] := by
  rw [outputWordsUpTo, List.range_succ, List.map_append, List.map_singleton, outputWordsUpTo]

theorem wordsOfBits_sponge (f : SpongeFn) (M : List Byte) (n : Nat) :
    wordsOfBits (sponge f M n) = outputWordsUpTo f M n (outputWords n) := by
  rw [wordsOfBits, spongeOutputHasItsLength f M n, outputWordsUpTo]
  rfl

/-- With k words out, the next word read is output word k (R114). -/
theorem Hashing.outputWord_eq_outputWordAt {f : SpongeFn} {M : List Byte} {n k : Nat} {R : List Word} {s : State}
    (h : Hashing f .squeeze 0 (k % (f.rate / 64)) (n - 64 * k) R (squeezedLanes f M k) s) :
    outputWord (settled s) = outputWordAt f M n k := by
  have hlane : k % (f.rate / 64) < 25 :=
    (Nat.mod_lt _ (lanesPerBlock_pos f)).trans_le ((lanesPerBlock_le f).trans (by decide))
  exact h.outputWord_eq hlane fun z hz => getLsbD_outputWordAt f M n k hlane hz

theorem completeAll_douts_succ (s : State) (k : Nat) :
    completeAll s (List.replicate (k + 1) .rdDout) = complete (completeAll s (List.replicate k .rdDout)) .rdDout := by
  rw [List.replicate_succ', completeAll_append]
  rfl

section
variable {f : SpongeFn} {M : List Byte} {n : Nat} {R : List Word} {s : State}
  (h : Hashing f .squeeze 0 0 n R (lanesOfBits (absorbed f M)) s)
include h

/-- After k DOUT reads with output still due, k output words have been read (R114). -/
theorem hashing_douts {k : Nat} (hk : 64 * k < n) :
    Hashing f .squeeze 0 (k % (f.rate / 64)) (n - 64 * k) (R ++ outputWordsUpTo f M n k) (squeezedLanes f M k)
      (completeAll s (List.replicate k .rdDout)) := by
  induction k with
  | zero =>
    rw [Nat.zero_mod, squeezedLanes, Nat.zero_div]
    simpa [outputWordsUpTo, completeAll] using h
  | succ k ih =>
    have hs := ih (by omega)
    have hlt : k % (f.rate / 64) < f.rate / 64 := Nat.mod_lt _ (lanesPerBlock_pos f)
    have hword := hs.outputWord_eq_outputWordAt
    have hleft : n - 64 * (k + 1) = n - 64 * k - 64 := by omega
    rw [completeAll_douts_succ, outputWordsUpTo_succ, ← List.append_assoc, hleft, squeezedLanes]
    obtain hopen | hfull := Nat.lt_or_eq_of_le (show k % (f.rate / 64) + 1 ≤ f.rate / 64 from hlt)
    · obtain ⟨hdiv, hmod⟩ := succ_within_block hopen
      rw [hdiv, hmod]
      exact hs.dout_open hword (by omega) hopen
    · obtain ⟨hdiv, hmod⟩ := succ_ends_block hfull
      rw [hdiv, hmod, Function.iterate_succ_apply']
      exact hs.dout_emptied hword (by omega) hfull

/-- The DOUT reads of n bits read every output word and end the hash (R114, R118). -/
theorem hashing_doutReads (hn : 0 < n) :
    Hashing f .done 0 ((outputWords n - 1) % (f.rate / 64) + 1) 0 (R ++ wordsOfBits (sponge f M n))
      (squeezedLanes f M (outputWords n - 1)) (completeAll s (List.replicate (outputWords n) .rdDout)) ∧
    (completeAll s (List.replicate (outputWords n) .rdDout)).busy = false := by
  obtain ⟨k, hk⟩ : ∃ k, outputWords n = k + 1 := ⟨(n - 1) / 64, by rw [outputWords]; omega⟩
  have hdue : 64 * k < n ∧ n ≤ 64 * k + 64 := by
    rw [outputWords] at hk
    omega
  have hs := hashing_douts h hdue.1
  have hlt : k % (f.rate / 64) < f.rate / 64 := Nat.mod_lt _ (lanesPerBlock_pos f)
  rw [wordsOfBits_sponge, hk, Nat.add_sub_cancel, completeAll_douts_succ, outputWordsUpTo_succ, ← List.append_assoc]
  exact hs.dout_last hs.outputWord_eq_outputWordAt (by omega) hlt

end

/-- The lanes of the last output word are the last squeezed state (R118). -/
theorem squeezedLanes_last (f : SpongeFn) (M : List Byte) {n : Nat} (hn : 0 < n) :
    squeezedLanes f M (outputWords n - 1) = lanesOfBits (lastSqueezed f M n) := by
  have hlanes : (outputWords n - 1) / (f.rate / 64) = (n + f.rate - 1) / f.rate - 1 := by
    have hwords : outputWords n - 1 = (n - 1) / 64 := by
      rw [outputWords]
      omega
    have hplace : n + f.rate - 1 = n - 1 + f.rate := by omega
    rw [hwords, Nat.div_div_eq_div_mul, ← rate_lanes, hplace, Nat.add_div_right _ (rate_pos f), Nat.add_sub_cancel]
  rw [squeezedLanes, hlanes, lastSqueezed, lanesOfBits_iterate_keccakFBits]

/-- The bytes of the words that a bit sequence fills are its bytes (R61). -/
theorem digestBytes_wordsOfBits {Z : Bits} {n : Nat} (hn : Z.length = n) : digestBytes (wordsOfBits Z) n = bytesOfBits Z := by
  subst hn
  refine List.map_congr_left fun k hk => BitVec.eq_of_getLsbD_eq fun z hz => ?_
  rw [List.mem_range] at hk
  have hword : k / 8 < outputWords Z.length := by
    rw [outputWords]
    omega
  have hplace : 64 * (k / 8) + (8 * (k % 8) + z) = 8 * k + z := by omega
  have hin : 8 * (k % 8) + z < 64 := by omega
  have hget : (wordsOfBits Z).getD (k / 8) 0 = wordOfBits ((Z.drop (64 * (k / 8))).take 64) := by
    simp [wordsOfBits, hword]
  rw [outputByte, hget, BitVec.getLsbD_extractLsb', decide_eq_true hz, Bool.true_and, getLsbD_wordOfBits _ hin, bitAt_take,
    decide_eq_true hin, Bool.true_and, bitAt_drop, hplace, BitVec.getLsbD_ofNat, decide_eq_true hz, Bool.true_and,
    testBit_bitsValue, bitAt_take, decide_eq_true hz, Bool.true_and, bitAt_drop]

/-- The block after the accesses of `hash f, M, n`, the engine at rest wherever one waits (R118). -/
theorem hashing_hashInstrs (f : SpongeFn) (M : List Byte) {n : Nat} (hn : f.admits n = true) (s : State) :
    Hashing f .done 0 ((outputWords n - 1) % (f.rate / 64) + 1) 0 (s.reads ++ wordsOfBits (sponge f M n))
      (lanesOfBits (lastSqueezed f M n)) (completeAll s (hashInstrs f M n)) ∧
    (completeAll s (hashInstrs f M n)).busy = false := by
  have hpos : 0 < n := (admits_range hn).1
  have hfinal := hashing_final (hashing_dinInstrs (M := M) (hashing_opening hn s) (Nat.le_refl _))
  rw [← squeezedLanes_last f M hpos, hashInstrs, completeAll_append, completeAll_append, completeAll_append]
  exact hashing_doutReads hfinal hpos

/-- Settles O40: every interleaving ends as the accesses alone do. -/
theorem hashProcedureComputesTheSponge : Obligations.HashProcedureComputesTheSponge := by
  intro f M n s es rest hn hes hev
  obtain ⟨hdone, hready⟩ := hashing_hashInstrs f M hn s
  obtain ⟨k, hrun⟩ := reaches_completeAll_ready (hashInstrs f M n) (hashInstrs_wf f M n) es rest
    (hes.trans (hashProcedure_eq_issue f M n)) s hev hready
  obtain ⟨hlanes, hphase, herr, hlptr, hoptr, hlfunc, hrem, hreads⟩ := hdone
  rw [settled_ready hready] at hlanes
  have hdigest := digestBytes_wordsOfBits (spongeOutputHasItsLength f M n)
  refine ⟨k, _, hrun, rfl, hreads, ?_, hlanes, hphase, hready, herr, BitVec.eq_of_toNat_eq hrem, BitVec.eq_of_toNat_eq hlptr, hlfunc,
    hoptr⟩
  rw [hreads, List.drop_left, hdigest]

end Sys2Proof.Machine
end

section
/-! PROOFS. The accesses of the bus and the commands that only control the block (R120 to R133). -/

namespace Sys2Proof.Machine

/-- Settles O1. -/
theorem stepRunsTheDecodedAccess : Obligations.StepRunsTheDecodedAccess := step_decoded_access

/-- Settles O3: the write runs as its command in every state, so with BUSY = 0 both complete and leave the list. -/
theorem cmdWritePerformsItsCommand : Obligations.CmdWritePerformsItsCommand := by
  intro s v i hd
  have hsame : exec (.wrCmd v) s = exec i s := exec_wrCmd_command s v i hd
  refine ⟨hsame, fun hb => ?_⟩
  have hnext : exec i s = .next (retire (instrEffect i s)) := exec_ready i s hb
  have hevents : (retire (instrEffect i s)).events = s.events.tail := by rw [retire_events, instrEffect_events]
  exact ⟨_, hsame.trans hnext, hnext, hevents⟩

/-- A LANE read that is not held returns its lane (R132). -/
theorem exec_rdLane (k : BitVec 5) (s : State) (hk : k.toNat < 25) (hb : s.busy = false) :
    exec (.rdLane k) s = .next { s with events := s.events.tail, reads := s.reads ++ [s.lanes[k.toNat]] } := by
  have hlane : laneExists k = true := decide_eq_true (Nat.le_of_lt_succ hk)
  rw [exec_ready _ s hb]
  simp only [instrEffect, hlane, if_true, getLane_of_lt _ k hk, respond, retire]

/-- An instruction that does not wait completes in every state. -/
theorem exec_not_waiting (i : Instr) (s : State) (h : waits i = false) : exec i s = .next (retire (instrEffect i s)) := by
  rw [exec_eq, h, Bool.false_and]
  rfl

theorem laneExists_of_ge {k : BitVec 5} (h : 25 ≤ k.toNat) : laneExists k = false := decide_eq_false (Nat.not_le.mpr h)

/-- A LANE read beyond lane 24 is refused at once (log entry 8). -/
theorem exec_rdLane_refused (k : BitVec 5) (s : State) (hk : 25 ≤ k.toNat) :
    exec (.rdLane k) s =
      .next { s with err := if s.err = 0 then 1 else s.err, events := s.events.tail, reads := s.reads ++ [0] } := by
  have hlane : laneExists k = false := laneExists_of_ge hk
  rw [exec_not_waiting (.rdLane k) s hlane]
  simp only [instrEffect, hlane, Bool.false_eq_true, if_false, recordErr_eq, respond, retire, ErrCode.code]

/-- A LANE write beyond lane 24 is refused at once (log entry 8). -/
theorem exec_wrLane_refused (k : BitVec 5) (v : Word) (s : State) (hk : 25 ≤ k.toNat) :
    exec (.wrLane k v) s = .next { s with err := if s.err = 0 then 1 else s.err, events := s.events.tail } := by
  have hlane : laneExists k = false := laneExists_of_ge hk
  rw [exec_not_waiting (.wrLane k v) s hlane]
  simp only [instrEffect, hlane, Bool.false_eq_true, if_false, recordErr_eq, retire, ErrCode.code]

/-- Settles O12. -/
theorem laneWindowReadsAndWrites : Obligations.LaneWindowReadsAndWrites := by
  intro s k v
  refine ⟨fun hb hk => ⟨exec_rdLane k s hk hb, _, exec_wrLane k v s hk hb, rfl, fun j hj => ?_⟩,
    fun hk => ⟨exec_rdLane_refused k s hk, exec_wrLane_refused k v s hk⟩⟩
  exact (Vector.getElem_set hk hj).trans (if_congr eq_comm rfl rfl)

/-- MODE reads as the number of its function (R40). -/
theorem modeWord_eq_ofNat (s : State) : modeWord s = BitVec.ofNat 64 s.func.toNat := (BitVec.ofNat_toNat 64 s.func).symm

/-- Settles O9: none of the four reads stalls. -/
theorem registerReadsReturnTheirValue : Obligations.RegisterReadsReturnTheirValue := by
  intro s
  rw [← modeWord_eq_ofNat]
  exact ⟨exec_unstalled .rdId s rfl, exec_unstalled .rdMode s rfl, exec_unstalled .rdOutlen s rfl,
    exec_unstalled .rdRemain s rfl⟩

/-- The three low bits of a word are its remainder by 8. -/
theorem extract_low_three (v : Word) : v.extractLsb' 0 3 = BitVec.ofNat 3 (v.toNat % 8) := by
  apply BitVec.eq_of_toNat_eq
  simp

/-- Settles O11. -/
theorem modeAndOutlenWritesStore : Obligations.ModeAndOutlenWritesStore := by
  intro s v
  rw [← extract_low_three]
  exact ⟨exec_wrMode v s, exec_wrOutlen v s⟩

/-- Settles O41: with BUSY = 0 neither command waits. -/
theorem nopAndClrerrComplete : Obligations.NopAndClrerrComplete := by
  intro s hb
  exact ⟨exec_ready .nop s hb, exec_ready .clrerr s hb⟩

end Sys2Proof.Machine
end

section
/-! PROOFS. Where a step has no next state (R144, R154, R173), and which steps change ERR (R147, R149). -/

namespace Sys2Proof.Machine

/-! ### Nothing stops but the refused reset -/

/-- No instruction faults: it waits or it completes (R144, R154). -/
theorem exec_total (i : Instr) (s : State) : ∃ t, exec i s = .next t := by
  rw [exec_eq]
  split
  · exact ⟨_, rfl⟩
  · exact ⟨_, rfl⟩

/-- An access always has a next state, decoded or refused. -/
theorem step_access_total (s : State) (r : Request) (rest : List Event) (h : s.events = .access r :: rest) :
    ∃ t, step s = .next t := by
  cases hd : decodeAccess r with
  | error e => exact ⟨_, step_refused_access s r rest e h hd⟩
  | ok i =>
    rw [step_decoded_access s r rest i h hd]
    exact exec_total i s

/-- Settles O45, event by event. -/
theorem nothingStopsButTheRefusedReset : Obligations.NothingStopsButTheRefusedReset := by
  refine ⟨exec_total, fun s => ?_⟩
  match hev : s.events with
  | [] => exact .inl ⟨_, step_nil s hev⟩
  | .engine :: rest => exact .inl ⟨_, step_engine s rest hev⟩
  | .reset :: rest => exact .inl ⟨_, step_reset s rest hev⟩
  | .resetDuring r :: rest => exact .inr ⟨r, rest, rfl, step_resetDuring s r rest hev⟩
  | .access r :: rest => exact .inl (step_access_total s r rest hev)

/-! ### The first error stands -/

/-- From `s` to `t` ERR changes at most from 0 to a recorded code: the rule of RecordErr (R147). -/
def ErrLatches (s t : State) : Prop := t.err ≠ s.err → s.err = 0 ∧ 1 ≤ t.err.toNat ∧ t.err.toNat ≤ 6

theorem ErrLatches.of_eq {s t : State} (h : t.err = s.err) : ErrLatches s t := fun hne => absurd h hne

theorem errLatches_recordErr (c : ErrCode) (s : State) : ErrLatches s (recordErr c s) := by
  by_cases h : s.err = 0
  · rw [recordErr_first c s h]
    exact fun _ => ⟨h, errCode_range c⟩
  · rw [recordErr_kept c s h]
    exact .of_eq rfl

@[simp] theorem engineTurn_err (s : State) : (engineTurn s).err = s.err := by
  simp only [engineTurn]; split <;> simp

@[simp] theorem refusedData_err (r : Request) (s : State) : (refusedData r s).err = s.err := by
  cases r <;> rfl

@[simp] theorem absorbWord_err (v : Word) (s : State) : (absorbWord v s).err = s.err := by
  obtain ⟨-, heq⟩ | ⟨-, heq⟩ := absorbWord_cases v s <;> rw [heq]

@[simp] theorem consumeWord_err (s : State) : (consumeWord s).err = s.err := by
  obtain ⟨-, heq⟩ | ⟨-, -, heq⟩ | ⟨-, -, heq⟩ := consumeWord_cases s <;> rw [heq]

/-- An operation that is accepted, with ERR kept, or refused, with its error recorded, latches at most one error. -/
theorem errLatches_ite (p : Prop) [Decidable p] (c : ErrCode) {s t u : State} (ht : t.err = s.err)
    (hu : u.err = (recordErr c s).err) : ErrLatches s (if p then t else u) := by
  split
  · exact .of_eq ht
  · rw [ErrLatches, hu]
    exact errLatches_recordErr c s

/-- INIT clears ERR, and records E_MODE or E_LEN where it is refused (R108). -/
theorem initHash_err (s : State) : (initHash s).err = 0 ∨ (initHash s).err = 5 ∨ (initHash s).err = 6 := by
  obtain ⟨-, heq⟩ | ⟨-, -, -, heq⟩ | ⟨-, -, heq⟩ := initHash_cases s <;> rw [heq]
  · exact .inr (.inl rfl)
  · exact .inr (.inr rfl)
  · exact .inl rfl

/-- The commands that clear ERR, each with the values it may leave (R108, R123, R124). -/
def ClearsErr (c : Instr) (err : BitVec 4) : Prop :=
  (c = .clrerr ∧ err = 0) ∨ (c = .sreset ∧ err = 0) ∨ (c = .init ∧ (err = 0 ∨ err = 5 ∨ err = 6))

/-- A command that completes latches at most one error, or is one of those that clear ERR. -/
theorem commandEffect_err (c : Instr) (s : State) :
    ErrLatches s (commandEffect c s) ∨ ClearsErr c (commandEffect c s).err := by
  cases c with
  | clrerr => exact .inr (.inl ⟨rfl, rfl⟩)
  | sreset => exact .inr (.inr (.inl ⟨rfl, rfl⟩))
  | init => exact .inr (.inr (.inr ⟨rfl, initHash_err s⟩))
  | nop | permute | theta | rho | pi | chi => exact .inl (.of_eq rfl)
  | round ir | iota ir => exact .inl (errLatches_ite _ .arg rfl rfl)
  | final nb tail => exact .inl (errLatches_ite _ .phase rfl rfl)
  | rdId | wrCmd | rdStatus | rdMode | wrMode | rdOutlen | wrOutlen | wrDin | rdDout | rdRemain | rdLane | wrLane =>
    exact .inl (errLatches_recordErr .cmd s)

/-- A bus access that completes latches at most one error, or is a write of CMD that clears ERR. -/
theorem instrEffect_err (i : Instr) (s : State) (h : i.isCommand = false) :
    ErrLatches s (instrEffect i s) ∨
      ∃ v c, i = .wrCmd v ∧ decodeCommand v = .ok c ∧ ClearsErr c (instrEffect i s).err := by
  cases i with
  | wrCmd v =>
    simp only [instrEffect]
    cases hc : decodeCommand v with
    | error e => exact .inl (errLatches_recordErr _ s)
    | ok c => exact (commandEffect_err c s).imp_right fun hclears => ⟨v, c, rfl, hc, hclears⟩
  | rdId | rdStatus | rdMode | rdOutlen | rdRemain | wrMode | wrOutlen => exact .inl (.of_eq rfl)
  | wrDin v => exact .inl (errLatches_ite _ .phase (absorbWord_err v s) rfl)
  | rdDout => exact .inl (errLatches_ite _ .phase (consumeWord_err s) rfl)
  | rdLane k | wrLane k v =>
    rw [instrEffect, ite_apply]
    exact .inl (errLatches_ite _ .addr rfl rfl)
  | nop | init | final | permute | round | theta | rho | pi | chi | iota | clrerr | sreset => cases h

/-- A step latches at most one error, or it is the reset event, or a write of CMD with BUSY = 0 that clears ERR. -/
theorem step_err (s t : State) (h : step s = .next t) :
    ErrLatches s t ∨ (t.err = 0 ∧ ∃ rest, s.events = .reset :: rest) ∨
      ∃ v c, Ready s (.wrCmd v) ∧ decodeCommand v = .ok c ∧ ClearsErr c t.err := by
  obtain ⟨-, rfl⟩ | ⟨rest, -, rfl⟩ | ⟨rest, hev, rfl⟩ | ⟨r, rest, e, -, -, rfl⟩ | ⟨r, rest, i, -, -, -, -, rfl⟩ |
    ⟨r, rest, i, hev, hd, hb, rfl⟩ := step_cases s t h
  · exact .inl (.of_eq (engineTurn_err s))
  · exact .inl (.of_eq (engineTurn_err s))
  · exact .inr (.inl ⟨rfl, rest, hev⟩)
  · refine .inl ?_
    rw [ErrLatches, retire_err, refusedData_err]
    exact errLatches_recordErr (rejectCode e) s
  · exact .inl (.of_eq (engineStep_err s))
  · obtain hlatches | ⟨v, c, rfl, hc, hclears⟩ := instrEffect_err i s (decodeAccess_not_command r i hd)
    · exact .inl hlatches
    · exact .inr (.inr ⟨v, c, ⟨hb rfl, r, rest, hev, hd⟩, hc, hclears⟩)

/-- Settles O46. -/
theorem firstErrorStandsUntilCleared : Obligations.FirstErrorStandsUntilCleared := by
  intro s t hstep hne
  obtain hlatches | hreset | ⟨v, c, ⟨hb, r, rest, hev, hd⟩, hc, hclears⟩ := step_err s t hstep
  · exact .inl (hlatches hne)
  · exact .inr (.inl hreset)
  · refine .inr (.inr ⟨hb, r, rest, v, hev, hd, ?_⟩)
    obtain ⟨rfl, herr⟩ | ⟨rfl, herr⟩ | ⟨rfl, herr⟩ := hclears
    · exact .inl ⟨hc, herr⟩
    · exact .inr (.inl ⟨hc, herr⟩)
    · exact .inr (.inr ⟨hc, herr⟩)

end Sys2Proof.Machine
end

section
/-! PROOFS. Several blocks on a platform: a step and an access each change one block (R9, R52, R158). -/

namespace Sys2Proof.Machine

/-! ### The window of a block -/

/-- An access in the window of a block is the access at its offset there (R52). -/
theorem PlatformAccess.at_of_mem (a : PlatformAccess) {base : Nat} (hlow : base ≤ a.addr) (hhigh : a.addr < base + 512) :
    a.at base = some (match a.wdata with
      | none => .read (BitVec.ofNat 9 (a.addr - base)) a.be
      | some v => .write (BitVec.ofNat 9 (a.addr - base)) a.be v) := by
  rw [PlatformAccess.at, windowOffset, windowSize, if_pos ⟨hlow, hhigh⟩]
  rfl

/-- An access is outside a window exactly below its base or from its end on (R52). -/
theorem PlatformAccess.at_eq_none_iff (a : PlatformAccess) (base : Nat) :
    a.at base = none ↔ a.addr < base ∨ base + 512 ≤ a.addr := by
  rw [PlatformAccess.at, Option.map_eq_none_iff, windowOffset, windowSize]
  split
  · next hmem => exact iff_of_false nofun (by omega)
  · next hmem => exact iff_of_true rfl (by omega)

/-- An access that a block sees lies in its window. -/
theorem PlatformAccess.mem_of_at {a : PlatformAccess} {base : Nat} {r : Request} (h : a.at base = some r) :
    base ≤ a.addr ∧ a.addr < base + 512 := by
  have hin : ¬ (a.addr < base ∨ base + 512 ≤ a.addr) := by
    rw [← a.at_eq_none_iff base, h]
    nofun
  omega

/-! ### A step of one block -/

/-- A block whose step has a next state takes it. -/
theorem Platform.stepBlock_eq_set {p : Platform} {k : Nat} {b : Block} {t : State} (hb : p[k]? = some b)
    (hstep : step b.state = .next t) : p.stepBlock k = some (p.set k { b with state := t }) := by
  induction p generalizing k with
  | nil => cases hb
  | cons c p ih =>
    cases k with
    | zero =>
      cases hb
      simp only [Platform.stepBlock, hstep, List.set_cons_zero]
    | succ k => rw [Platform.stepBlock, ih hb, Option.map_some, List.set_cons_succ]

/-- A platform step replaces the one block that stepped. -/
theorem Platform.stepBlock_cases {p q : Platform} {k : Nat} (h : p.stepBlock k = some q) :
    ∃ b : Block, q = p.set k b := by
  induction p generalizing k q with
  | nil => cases h
  | cons c p ih =>
    cases k with
    | zero =>
      rw [Platform.stepBlock] at h
      split at h
      · exact ⟨_, (Option.some.inj h).symm⟩
      · cases h
      · cases h
    | succ k =>
      rw [Platform.stepBlock, Option.map_eq_some_iff] at h
      obtain ⟨p', hp', rfl⟩ := h
      obtain ⟨b, rfl⟩ := ih hp'
      exact ⟨b, rfl⟩

/-! ### The delivery of an access -/

/-- The first block whose window holds the address is given the access (log entry 10). -/
theorem Platform.route_eq_set {p : Platform} {a : PlatformAccess} {k : Nat} {b : Block} {r : Request} (hb : p[k]? = some b)
    (hr : a.at b.base = some r) (hfirst : ∀ j c, j < k → p[j]? = some c → a.at c.base = none) :
    p.route a = some (p.set k (b.give r)) := by
  induction p generalizing k with
  | nil => cases hb
  | cons c p ih =>
    cases k with
    | zero =>
      cases hb
      simp only [Platform.route, hr, List.set_cons_zero]
    | succ k =>
      have hc : a.at c.base = none := hfirst 0 c (Nat.zero_lt_succ k) rfl
      have htail := ih hb fun j d hj => hfirst (j + 1) d (Nat.succ_lt_succ hj)
      simp only [Platform.route, hc, htail, Option.map_some, List.set_cons_succ]

/-- An access reaches no block exactly where no window holds its address (R52). -/
theorem Platform.route_eq_none_iff (p : Platform) (a : PlatformAccess) : p.route a = none ↔ ∀ b ∈ p, a.at b.base = none := by
  induction p with
  | nil => exact iff_of_true rfl nofun
  | cons c p ih =>
    rw [List.forall_mem_cons, ← ih, Platform.route]
    cases a.at c.base with
    | none => simp
    | some r => simp

/-- An access that is delivered is given to one block whose window holds it. -/
theorem Platform.route_cases {p q : Platform} {a : PlatformAccess} (h : p.route a = some q) :
    ∃ (k : Nat) (b : Block) (r : Request), p[k]? = some b ∧ a.at b.base = some r ∧ q = p.set k (b.give r) := by
  induction p generalizing q with
  | nil => cases h
  | cons c p ih =>
    rw [Platform.route] at h
    split at h
    · next r hr => exact ⟨0, c, r, rfl, hr, (Option.some.inj h).symm⟩
    · obtain ⟨p', hp', rfl⟩ := Option.map_eq_some_iff.mp h
      obtain ⟨k, b, r, hb, hr, rfl⟩ := ih hp'
      exact ⟨k + 1, b, r, hb, hr, rfl⟩

/-- Settles O53: a step and a delivery each set one place of the list. -/
theorem blocksShareNothing : Obligations.BlocksShareNothing := by
  refine ⟨fun p k b t => Platform.stepBlock_eq_set, fun p q k h => ?_,
    fun a base => ⟨a.at_of_mem, (a.at_eq_none_iff base).mpr⟩, fun p a k b r => Platform.route_eq_set,
    fun p a => ?_, fun p q a h => ?_⟩
  · obtain ⟨b, rfl⟩ := Platform.stepBlock_cases h
    exact ⟨List.length_set, fun j hj => List.getElem?_set_ne hj.symm⟩
  · simp only [Platform.route_eq_none_iff, PlatformAccess.at_eq_none_iff]
  · obtain ⟨k, b, r, hb, hr, rfl⟩ := Platform.route_cases h
    obtain ⟨hlow, hhigh⟩ := PlatformAccess.mem_of_at hr
    have hk : k < p.length := (List.getElem?_eq_some_iff.mp hb).1
    exact ⟨k, b, r, hb, hr, hlow, hhigh, List.getElem?_set_self hk, fun j hj => List.getElem?_set_ne hj.symm⟩

end Sys2Proof.Machine
end

section
/-! PROOFS. Reset by its event and by SRESET, and the reset that is refused (R124, R170 to R173). -/

namespace Sys2Proof.Machine

/-- STATUS after reset: only RLANES is not 0, the rate of LFUNC = 0 (R42, R170). -/
theorem statusWord_blockReset (s : State) : statusWord (blockReset s) = 0x0000000048000000 := by
  have hreset : statusWord State.reset = 0x0000000048000000 := by decide
  exact hreset

/-- A reset that takes its event, or its access, off the list leaves the reset state of R47 with what stands outside the block. -/
theorem retire_blockReset {s : State} {e : Event} {rest : List Event} (h : s.events = e :: rest) :
    retire (blockReset s) = { State.reset with events := rest, reads := s.reads } := by
  rw [retire, blockReset_events, h]
  rfl

/-- A read that does not stall completes in every state, BUSY = 1 included, and returns the word of its effect. -/
theorem exec_respond {i : Instr} {v : Word} {t : State} (hi : i.stalls = false) (hv : instrEffect i t = respond v t) :
    ∃ u, exec i t = .next u ∧ u.reads = t.reads ++ [v] :=
  ⟨_, exec_unstalled i t hi, by rw [retire_reads, hv, respond_reads]⟩

/-- Settles O42: the reset state is explicit, and none of the three reads after it stalls. -/
theorem resetEventGivesTheResetState : Obligations.ResetEventGivesTheResetState := by
  intro s rest hev
  have hstep : step s = .next (retire (blockReset s)) := step_reset s rest hev
  have hevents : (retire (blockReset s)).events = rest := by rw [retire_blockReset hev]
  have hlanes : ∀ j, ∀ hj : j < 25, (retire (blockReset s)).lanes[j] = 0 := fun j hj => Vector.getElem_replicate hj
  have hstatus : statusWord (retire (blockReset s)) = 0x0000000048000000 := statusWord_blockReset s
  exact ⟨retire (blockReset s), hstep, hevents, rfl, hlanes, rfl, rfl, rfl, rfl, rfl, rfl, rfl, rfl, rfl, rfl,
    exec_respond rfl (congrArg (respond · _) hstatus), exec_respond rfl rfl, exec_respond rfl rfl⟩

/-- Settles O43: with BUSY = 0 SRESET does not wait, and both ways end in the reset state. -/
theorem sresetEqualsTheResetEvent : Obligations.SresetEqualsTheResetEvent := by
  intro s r rest hb hev
  have hsreset : exec .sreset s = .next { State.reset with events := rest, reads := s.reads } :=
    (exec_ready .sreset s hb).trans (congrArg _ (retire_blockReset hev))
  have hevent : step { s with events := .reset :: rest } = .next { State.reset with events := rest, reads := s.reads } :=
    step_reset _ rest rfl
  exact ⟨hsreset.trans hevent.symm, hsreset⟩

/-- Settles O44. -/
theorem resetDuringAnAccessIsRefused : Obligations.ResetDuringAnAccessIsRefused := step_resetDuring

end Sys2Proof.Machine
end
